-- ==== Sys2Proof/Word.lean ====
section
/-! DEFINITION. The widths of the hardware: a 32-bit word (register, data cell, instruction) and an 8-bit field. -/

namespace Sys2Proof

/-- XLEN = ILEN = 32 (00_scope R6): a register, a data-store word, an instruction word. -/
abbrev Word := BitVec 32

/-- OPW = FW = 8 (00_scope R6): the opcode field and each of the three operand fields of a word. -/
abbrev Field8 := BitVec 8

end Sys2Proof
end

