-- ==== Sys2Proof/Config.lean ====
section
/-! DEFINITION. The fixed parameters of the hardware (00_scope R6), the names of the 31 instructions (R90), and the
two parameters the spec leaves open (R8): the opcode map OPC and the function CMP_FN of `cmp`. -/

namespace Sys2Proof

/-- IMEM_WORDS = DMEM_WORDS = 32768 (00_scope R6): each store has the addresses 0..32767. -/
abbrev storeWords : Nat := 32768

/-- NREG = 32 (00_scope R6): a register number, R0 to R31. -/
abbrev Reg := Fin 32

/-- SP = 31 (00_scope R6): the register push, pop, call, ret and jal use implicitly (10_state R22). -/
abbrev sp : Reg := 31

/-- BASE is an integer in 0..32767 (00_scope R7). -/
abbrev BaseAddr := Fin storeWords

/-- The 31 mnemonics (30_encoding R90). -/
inductive Mnemonic where
  | add | sub | xor | or | and | mult | div | cmp
  | asl | asr | lsl | lsr
  | inc | dec | zeros | passnota | passa | lcl | lch
  | push | pop | call | ret
  | load | store
  | j | jal | jr | beq | bne
  | halt
  deriving DecidableEq, Repr

/-- Every mnemonic, in the order of R90. -/
def Mnemonic.all : List Mnemonic :=
  [.add, .sub, .xor, .or, .and, .mult, .div, .cmp, .asl, .asr, .lsl, .lsr, .inc, .dec, .zeros, .passnota, .passa,
   .lcl, .lch, .push, .pop, .call, .ret, .load, .store, .j, .jal, .jr, .beq, .bne, .halt]

/-- The parameter OPC (00_scope R8): an 8-bit opcode for each mnemonic. -/
abbrev OpcodeMap := Mnemonic → Field8

/-- What R8 and R90 ask of OPC: one mnemonic per code, and OPC(halt) = 0xFF. -/
def OpcodeMap.Admissible (opc : OpcodeMap) : Prop :=
  (∀ m n, opc m = opc n → m = n) ∧ opc .halt = 0xFF

/-- One row of CMP_FN: its optional value at one pair of operands; none where it is defined and gives no value. -/
structure CmpEntry where
  a : Word
  b : Word
  value : Option Word
  deriving DecidableEq, Repr

/-- The parameter CMP_FN (00_scope R8), "partial function from two 32-bit values to an optional 32-bit value", as plain
data: the rows at which it is defined. Its default is no row: undefined everywhere (R158, decision D3; log 3). -/
abbrev CmpFn := List CmpEntry

end Sys2Proof
end

