-- ==== Sys2Proof/Syntax.lean ====
section
/-! DEFINITION. The instructions with the operands the hardware or its assembler gives them (30_encoding R88, R103). -/

namespace Sys2Proof

/-- One constructor per row of spec/opcode_table.json; operands in the assembler's order (R88, R103). A register operand
is the raw 8-bit field, because a field of 32..255 decodes and then stops the run (R87, R127). -/
inductive Instr where
  | add (rc ra rb : Field8)
  | sub (rc ra rb : Field8)
  | xor (rc ra rb : Field8)
  | or (rc ra rb : Field8)
  | and (rc ra rb : Field8)
  | mult (rc ra rb : Field8)
  | div (rc ra rb : Field8)
  | cmp (rc ra rb : Field8)
  | asl (rc ra rb : Field8)
  | asr (rc ra rb : Field8)
  | lsl (rc ra rb : Field8)
  | lsr (rc ra rb : Field8)
  | inc (rc : Field8)
  | dec (rc : Field8)
  | zeros (rc : Field8)
  | passnota (rc ra : Field8)
  | passa (rc ra : Field8)
  | lcl (rc : Field8) (imm16 : BitVec 16)
  | lch (rc : Field8) (imm16 : BitVec 16)
  | push (ra : Field8)
  | pop (rc : Field8)
  | call (ra : Field8)
  | ret
  | load (rc ra : Field8)
  | store (ra rb : Field8)
  | j (addr24 : BitVec 24)
  | jal (addr24 : BitVec 24)
  | jr (ra : Field8)
  | beq (ra rb : Field8) (addr8 : Field8)
  | bne (ra rb : Field8) (addr8 : Field8)
  | halt
  deriving DecidableEq, Repr

end Sys2Proof
end

