-- ==== Sys2Proof/WellFormed.lean ====
section
/-! DEFINITION. Which fields of an instruction are register indices, and when they name registers (10_state R23,
40_execution_cycle R127). -/

namespace Sys2Proof

/-- The fields an instruction uses as register indices, in the order f1, f2, f3 (R23's reads and writes columns, R127).
rb of the four shifts is not among them (R89, R190); immediates and addresses are not register indices (R127). -/
def Instr.regFields : Instr → List Field8
  | .add rc ra rb => [ra, rb, rc]
  | .sub rc ra rb => [ra, rb, rc]
  | .xor rc ra rb => [ra, rb, rc]
  | .or rc ra rb => [ra, rb, rc]
  | .and rc ra rb => [ra, rb, rc]
  | .mult rc ra rb => [ra, rb, rc]
  | .div rc ra rb => [ra, rb, rc]
  | .cmp rc ra rb => [ra, rb, rc]
  | .asl rc ra _ => [ra, rc]
  | .asr rc ra _ => [ra, rc]
  | .lsl rc ra _ => [ra, rc]
  | .lsr rc ra _ => [ra, rc]
  | .inc rc => [rc]
  | .dec rc => [rc]
  | .zeros rc => [rc]
  | .passnota rc ra => [ra, rc]
  | .passa rc ra => [ra, rc]
  | .lcl rc _ => [rc]
  | .lch rc _ => [rc]
  | .push ra => [ra]
  | .pop rc => [rc]
  | .call ra => [ra]
  | .ret => []
  | .load rc ra => [ra, rc]
  | .store ra rb => [ra, rb]
  | .j _ => []
  | .jal _ => []
  | .jr ra => [ra]
  | .beq ra rb _ => [ra, rb]
  | .bne ra rb _ => [ra, rb]
  | .halt => []

/-- A field names a register when its unsigned value is at most 31 (R87, R127). -/
def Field8.namesReg (f : Field8) : Bool := decide (f.toNat < 32)

/-- The first register field, in the order f1, f2, f3, that names no register: the one R127 reports. -/
def Instr.offendingField (i : Instr) : Option Field8 := i.regFields.find? (fun f => !Field8.namesReg f)

/-- Every register field names a register, so the operand check of R127 passes. -/
def Instr.wellFormed (i : Instr) : Bool := i.regFields.all Field8.namesReg

end Sys2Proof
end

