-- ==== Sys2Proof/Decode.lean ====
section
/-! DEFINITION. Field8 extraction (30_encoding R82 to R86), the default opcode map (R91), the decoder (R92, R123, R124),
and after it the encoder (R88, R93), both for any opcode map. -/

namespace Sys2Proof

/-- op = w[31:24] (R82). -/
def opcodeField (w : Word) : Field8 := w.extractLsb' 24 8

/-- f1 = w[23:16] (R83). -/
def field1 (w : Word) : Field8 := w.extractLsb' 16 8

/-- f2 = w[15:8] (R83). -/
def field2 (w : Word) : Field8 := w.extractLsb' 8 8

/-- f3 = w[7:0] (R83). -/
def field3 (w : Word) : Field8 := w.extractLsb' 0 8

/-- addr24 = w[23:0] (R84). -/
def addr24Of (w : Word) : BitVec 24 := w.extractLsb' 0 24

/-- addr8 = w[7:0] (R85). -/
def addr8Of (w : Word) : Field8 := w.extractLsb' 0 8

/-- imm16 = w[23:8] (R86). -/
def imm16Of (w : Word) : BitVec 16 := w.extractLsb' 8 16

/-- The default opcode map (R91). Only halt's value is the source's; the others are the spec's default for the open
parameter OPC (decision D2; PRESUMED, log 2). -/
def defaultOpc : OpcodeMap
  | .add => 0x01
  | .sub => 0x02
  | .zeros => 0x03
  | .xor => 0x04
  | .or => 0x05
  | .passnota => 0x06
  | .and => 0x07
  | .asl => 0x08
  | .asr => 0x09
  | .lsl => 0x0A
  | .lsr => 0x0B
  | .passa => 0x0C
  | .lch => 0x0E
  | .lcl => 0x0F
  | .load => 0x10
  | .store => 0x11
  | .jal => 0x12
  | .jr => 0x13
  | .beq => 0x14
  | .bne => 0x15
  | .j => 0x16
  | .mult => 0x17
  | .div => 0x18
  | .cmp => 0x19
  | .inc => 0x1A
  | .dec => 0x1B
  | .push => 0x1C
  | .pop => 0x1D
  | .call => 0x1E
  | .ret => 0x1F
  | .halt => 0xFF

/-- Why a word decodes to no instruction: its opcode is not in the map (R94, R124). -/
inductive DecodeReject where
  | invalidOpcode (w : Word)
  deriving DecidableEq, Repr

/-- The mnemonic m with OPC(m) = op, if there is one (R92, R124). -/
def resolveOpcode (opc : OpcodeMap) (op : Field8) : Option Mnemonic := Mnemonic.all.find? (fun m => opc m == op)

/-- The instruction of a mnemonic with the operands it takes from the word's fields (R83 to R89). -/
def instrOf (m : Mnemonic) (w : Word) : Instr :=
  match m with
  | .add => .add (field3 w) (field1 w) (field2 w)
  | .sub => .sub (field3 w) (field1 w) (field2 w)
  | .xor => .xor (field3 w) (field1 w) (field2 w)
  | .or => .or (field3 w) (field1 w) (field2 w)
  | .and => .and (field3 w) (field1 w) (field2 w)
  | .mult => .mult (field3 w) (field1 w) (field2 w)
  | .div => .div (field3 w) (field1 w) (field2 w)
  | .cmp => .cmp (field3 w) (field1 w) (field2 w)
  | .asl => .asl (field3 w) (field1 w) (field2 w)
  | .asr => .asr (field3 w) (field1 w) (field2 w)
  | .lsl => .lsl (field3 w) (field1 w) (field2 w)
  | .lsr => .lsr (field3 w) (field1 w) (field2 w)
  | .inc => .inc (field3 w)
  | .dec => .dec (field3 w)
  | .zeros => .zeros (field3 w)
  | .passnota => .passnota (field3 w) (field1 w)
  | .passa => .passa (field3 w) (field1 w)
  | .lcl => .lcl (field3 w) (imm16Of w)
  | .lch => .lch (field3 w) (imm16Of w)
  | .push => .push (field1 w)
  | .pop => .pop (field2 w)
  | .call => .call (field1 w)
  | .ret => .ret
  | .load => .load (field3 w) (field1 w)
  | .store => .store (field1 w) (field2 w)
  | .j => .j (addr24Of w)
  | .jal => .jal (addr24Of w)
  | .jr => .jr (field1 w)
  | .beq => .beq (field1 w) (field2 w) (addr8Of w)
  | .bne => .bne (field1 w) (field2 w) (addr8Of w)
  | .halt => .halt

/-- Decoding under an opcode map: the opcode field alone selects the instruction (R92); an unmapped opcode is rejected
by name (R94, R124). Every word of opcode 0xFF is halt (R93, decision D11; log 12). -/
def decodeWith (opc : OpcodeMap) (w : Word) : Except DecodeReject Instr :=
  match resolveOpcode opc (opcodeField w) with
  | some m => .ok (instrOf m w)
  | none => .error (.invalidOpcode w)

/-- Decoding under the default opcode map (R91). -/
def decode (w : Word) : Except DecodeReject Instr := decodeWith defaultOpc w

/-- The host's entry to the decoder: the instruction of nbits bits whose bits are w, all bits above nbits zero. An
instruction is one 32-bit word (R80), so a longer one is no instruction of this hardware. -/
def decodeTableWord (nbits w : Nat) : Option Instr :=
  if nbits ≤ 32 then (decode (BitVec.ofNat 32 (w % 2 ^ nbits))).toOption else none

/-- The mnemonic of an instruction. -/
def Instr.mnemonic : Instr → Mnemonic
  | .add _ _ _ => .add
  | .sub _ _ _ => .sub
  | .xor _ _ _ => .xor
  | .or _ _ _ => .or
  | .and _ _ _ => .and
  | .mult _ _ _ => .mult
  | .div _ _ _ => .div
  | .cmp _ _ _ => .cmp
  | .asl _ _ _ => .asl
  | .asr _ _ _ => .asr
  | .lsl _ _ _ => .lsl
  | .lsr _ _ _ => .lsr
  | .inc _ => .inc
  | .dec _ => .dec
  | .zeros _ => .zeros
  | .passnota _ _ => .passnota
  | .passa _ _ => .passa
  | .lcl _ _ => .lcl
  | .lch _ _ => .lch
  | .push _ => .push
  | .pop _ => .pop
  | .call _ => .call
  | .ret => .ret
  | .load _ _ => .load
  | .store _ _ => .store
  | .j _ => .j
  | .jal _ => .jal
  | .jr _ => .jr
  | .beq _ _ _ => .beq
  | .bne _ _ _ => .bne
  | .halt => .halt

/-- The word `op || f1 || f2 || f3` (R82, R83). -/
def packWord (op f1 f2 f3 : Field8) : Word := op ++ f1 ++ f2 ++ f3

/-- The canonical word of an instruction (R88): unused fields are 0 (R96), halt is all ones (R93). -/
def encodeWith (opc : OpcodeMap) (i : Instr) : Word :=
  match i with
  | .add rc ra rb => packWord (opc .add) ra rb rc
  | .sub rc ra rb => packWord (opc .sub) ra rb rc
  | .xor rc ra rb => packWord (opc .xor) ra rb rc
  | .or rc ra rb => packWord (opc .or) ra rb rc
  | .and rc ra rb => packWord (opc .and) ra rb rc
  | .mult rc ra rb => packWord (opc .mult) ra rb rc
  | .div rc ra rb => packWord (opc .div) ra rb rc
  | .cmp rc ra rb => packWord (opc .cmp) ra rb rc
  | .asl rc ra rb => packWord (opc .asl) ra rb rc
  | .asr rc ra rb => packWord (opc .asr) ra rb rc
  | .lsl rc ra rb => packWord (opc .lsl) ra rb rc
  | .lsr rc ra rb => packWord (opc .lsr) ra rb rc
  | .inc rc => packWord (opc .inc) 0 0 rc
  | .dec rc => packWord (opc .dec) 0 0 rc
  | .zeros rc => packWord (opc .zeros) 0 0 rc
  | .passnota rc ra => packWord (opc .passnota) ra 0 rc
  | .passa rc ra => packWord (opc .passa) ra 0 rc
  | .lcl rc imm16 => opc .lcl ++ imm16 ++ rc
  | .lch rc imm16 => opc .lch ++ imm16 ++ rc
  | .push ra => packWord (opc .push) ra 0 0
  | .pop rc => packWord (opc .pop) 0 rc 0
  | .call ra => packWord (opc .call) ra 0 0
  | .ret => packWord (opc .ret) 0 0 0
  | .load rc ra => packWord (opc .load) ra 0 rc
  | .store ra rb => packWord (opc .store) ra rb 0
  | .j addr24 => opc .j ++ addr24
  | .jal addr24 => opc .jal ++ addr24
  | .jr ra => packWord (opc .jr) ra 0 0
  | .beq ra rb addr8 => packWord (opc .beq) ra rb addr8
  | .bne ra rb addr8 => packWord (opc .bne) ra rb addr8
  | .halt => 0xFFFFFFFF

/-- The canonical word of an instruction under the default opcode map. -/
def encode (i : Instr) : Word := encodeWith defaultOpc i

end Sys2Proof
end

