-- ==== Sys2Proof/Machine/Memory.lean ====
section
/-! DEFINITION. A store of 32768 words as a list of (address, word) pairs in one canonical form (20_memory R51, R52).
The hardware's smallest unit is the word and no byte of it has an address (R54, R58), so a cell is a word (log 4). -/

namespace Sys2Proof.Machine

/-- A store: its cells that do not hold what an unlisted address reads as, by rising address. -/
abbrev Memory := List (Nat × Word)

/-- What an unlisted address reads as: 0, the reset value of every data cell (10_state R38, R53) and, by decision D10
(log 4), of every instruction cell the loader did not write. -/
def unlistedWord : Word := 0

/-- The word at an address. -/
def Memory.read : Memory → Nat → Word
  | [], _ => unlistedWord
  | (k, w) :: m, a => if a = k then w else Memory.read m a

/-- Put a cell before a canonical store of higher addresses: a word an unlisted address reads as is not listed. -/
def Memory.put (a : Nat) (v : Word) (m : Memory) : Memory := if v = unlistedWord then m else (a, v) :: m

/-- The store with one word written, in canonical form again. -/
def Memory.write : Memory → Nat → Word → Memory
  | [], a, v => Memory.put a v []
  | (k, w) :: m, a, v =>
    if a < k then Memory.put a v ((k, w) :: m)
    else if a = k then Memory.put a v m
    else (k, w) :: Memory.write m a v

/-- Canonical from address lo on: addresses rise strictly, stay within the store and list no unlistedWord. -/
def Memory.wfFrom (lo : Nat) : Memory → Bool
  | [] => true
  | (k, w) :: m => decide (lo ≤ k) && decide (k < storeWords) && decide (w ≠ unlistedWord) && Memory.wfFrom (k + 1) m

/-- The canonical form of a store. -/
def Memory.wf (m : Memory) : Bool := Memory.wfFrom 0 m

end Sys2Proof.Machine
end

