-- ==== Sys2Proof/Machine/State.lean ====
section
/-! DEFINITION. The state of the core (10_state R20 to R38), its stop causes (60_exceptions R260), and the state right
after reset (R38, R290). -/

namespace Sys2Proof.Machine

/-- The seven stop causes and the info each records (60_exceptions R260, R273). -/
inductive Cause where
  /-- Normal end: the word at address t is halt (R261). -/
  | halt (t : Nat)
  /-- Clean end: the fetch found pc above 32767 (R262). -/
  | pcOutOfRange (pc : Nat)
  /-- Forced stop: steps = MAX_STEPS (R269). -/
  | stepBudget (steps : Nat)
  /-- Failure: the word w at address t has an unmapped opcode (R264). -/
  | invalidOpcode (t : Nat) (w : Word)
  /-- Failure: a data access at the exact address ea, above 32767 (R263). -/
  | dataAddressOutOfRange (ea : Nat)
  /-- Failure: the instruction at t uses the field value i, above 31, as a register index (R268). -/
  | registerIndexOutOfRange (t : Nat) (i : Nat)
  /-- The model's own: the instruction at t has no meaning under the parameters, i.e. cmp where CMP_FN is undefined
  (R265, R158). -/
  | refused (t : Nat) (m : Mnemonic)
  deriving DecidableEq, Repr

/-- The run state (10_state R32). -/
inductive RunState where
  | running
  | stopped (cause : Cause)
  deriving DecidableEq, Repr

/-- Everything the spec gives the machine. -/
structure State where
  /-- R0 to R31 (R20). -/
  x : Vector Word 32
  /-- The program counter, a word index, never reduced (R25, R26). -/
  pc : Nat
  /-- The instruction store (R29). -/
  imem : Memory
  /-- The data store (R30). -/
  dmem : Memory
  /-- The base-address register BASE (R31). -/
  base : BaseAddr
  /-- The run state (R32). -/
  run : RunState
  /-- The step counter (R34). -/
  steps : Nat
  /-- The step budget MAX_STEPS, `none` for unbounded (R7, R36). -/
  maxSteps : Option Nat
  /-- The model's own field: the parameter CMP_FN of 00_scope R8, which nothing changes (log 3). -/
  cmpFn : CmpFn
  deriving DecidableEq, Repr

/-- Why the machine takes no step. -/
inductive Fault where
  /-- Raised by `step` (Machine/Cycle.lean, whileRunning) when the core is already Stopped: the step's precondition
  run = Running fails and no step exists (R120, R132, R270; U14; log 5). Safe: nothing runs on. -/
  | stopped (cause : Cause)
  deriving DecidableEq, Repr

/-- Why an instruction has no meaning in the model. -/
inductive Refusal where
  /-- Raised by an arm of `exec` for an instruction the model gives no meaning yet; no arm does. Safe. -/
  | notModelled (mnemonic : String)
  deriving DecidableEq, Repr

/-- The outcome of an instruction or a step. -/
abbrev Out := Host.Outcome State Fault Refusal

/-- The machine right after reset with no program image (R38, R290): all registers and data cells 0, BASE 0 (the history
of address directives is empty), pc = BASE, Running, steps 0. MAX_STEPS is the host's; unbounded here (log 17). CMP_FN is
its default, undefined everywhere (R8). -/
def State.reset : State where
  x := Vector.replicate 32 0
  pc := 0
  imem := []
  dmem := []
  base := 0
  run := .running
  steps := 0
  maxSteps := none
  cmpFn := []

end Sys2Proof.Machine
end

