-- ==== Sys2Proof/Machine/Ops.lean ====
section
/-! DEFINITION. The named operations every instruction is written with: register access (00_scope R9), memory access
(R10), the pc (R130), arithmetic modulo 2^32, and taking a stop (R11, R266). -/

namespace Sys2Proof.Machine

/-- u32 (00_scope 5.1): the exact integer result reduced modulo 2^32. -/
def u32 (n : Int) : Word := BitVec.ofInt 32 n

/-- x[i] (R9). -/
def State.reg (s : State) (i : Reg) : Word := s.x.get i

/-- x[i] <- v (R9). No register is hardwired (R21). -/
def State.setReg (s : State) (i : Reg) (v : Word) : State := { s with x := s.x.set i v }

/-- pc <- t, without reduction (R11, R26). -/
def State.setPc (s : State) (t : Nat) : State := { s with pc := t }

/-- The pc update of every instruction outside Branch/Jump: pc <- T + 1, not reduced (R130). -/
def State.advance (s : State) : State := s.setPc (s.pc + 1)

/-- The data store replaced. -/
def State.setDmem (s : State) (m : Memory) : State := { s with dmem := m }

/-- The run state replaced. -/
def State.setRun (s : State) (r : RunState) : State := { s with run := r }

/-- The step counter replaced. -/
def State.setSteps (s : State) (n : Nat) : State := { s with steps := n }

/-- The word in a data cell. -/
def State.dataWord (s : State) (a : Nat) : Word := s.dmem.read a

/-- The word in an instruction cell. -/
def State.instrWord (s : State) (a : Nat) : Word := s.imem.read a

/-- The state a stop leaves: run <- Stopped(cause, info) and nothing else (R266). -/
def State.stop (s : State) (c : Cause) : State := s.setRun (.stopped c)

/-- Taking a stop, this hardware's exception entry: `raise <Cause>(info)` keeps every write already made and sets the run
state; there is no handler (R11, R266) and so a next state, from which no step exists (R270). There is no return beside
it: only a reset leaves Stopped (R270, R290; State.launch). -/
def raise (s : State) (c : Cause) : Out := .next (s.stop c)

/-- An address within a store of 32768 words (R10). -/
def inStore (a : Nat) : Bool := decide (a < storeWords)

/-- MemRead(a, 32) (R10): the word, or DataAddressOutOfRange(a) with nothing read (R56). -/
def memRead (a : Nat) (s : State) (k : Word → Out) : Out :=
  if inStore a then k (s.dataWord a) else raise s (.dataAddressOutOfRange a)

/-- MemWrite(a, 32, v) (R10): the word stored, or DataAddressOutOfRange(a) with no cell written (R56). -/
def memWrite (a : Nat) (v : Word) (s : State) (k : State → Out) : Out :=
  if inStore a then k (s.setDmem (s.dmem.write a v)) else raise s (.dataAddressOutOfRange a)

/-- Write-back of a register result and the pc update after it (R129, R130). -/
def writeBack (c : Reg) (v : Word) (s : State) : Out := .next (s.setReg c v).advance

end Sys2Proof.Machine
end

