-- ==== Sys2Proof/Machine/Operands.lean ====
section
/-! DEFINITION. The operand forms: a register field with its check (40_execution_cycle R127), the effective data
addresses (20_memory R55), the jump and branch targets (10_state R26, R27), and the halves of a register (R176, R177). -/

namespace Sys2Proof.Machine

/-- A field used as a register index (R87): the register it names, or RegisterIndexOutOfRange(T, i) before the
instruction changes anything (R127, decision D8; log 6). Meanings nest these in the order f1, f2, f3. -/
def withReg (f : Field8) (s : State) (k : Reg → Out) : Out :=
  if h : f.toNat < 32 then k ⟨f.toNat, h⟩ else raise s (.registerIndexOutOfRange s.pc f.toNat)

/-- The field that names a register. -/
def regField (r : Reg) : Field8 := BitVec.ofNat 8 r.val

/-- EA = BASE + x[r], the exact sum, of load and store (R55, R220); also the target of jr and ret (R232, R203). -/
def basePlusReg (s : State) (r : Reg) : Nat := s.base.val + (s.reg r).toNat

/-- BASE + addr, the target of j, jal, beq and bne (R230, R231, R233). -/
def basePlusAddr {n : Nat} (s : State) (addr : BitVec n) : Nat := s.base.val + addr.toNat

/-- The data address of push, pop and call: x[31], BASE not added (R55). -/
def stackAddr (s : State) : Nat := (s.reg sp).toNat

/-- x[31] <- u32(x[31] - 1), the first sub-step of push and call (R200, R202). -/
def decSp (s : State) : State := s.setReg sp (u32 ((s.reg sp).toNat - 1))

/-- x[31] <- u32(x[31] + 1), the last sub-step of pop (R201). -/
def incSp (s : State) : State := s.setReg sp (u32 ((s.reg sp).toNat + 1))

/-- T + 1 as the value of a register or cell (jal, call: R231, R202). In a step T is at most 32767, so nothing is cut. -/
def linkWord (s : State) : Word := u32 (s.pc + 1)

/-- (v & 0xFFFF0000) | imm16 (R176). -/
def withLowHalf (v : Word) (imm16 : BitVec 16) : Word := (v &&& 0xFFFF0000) ||| imm16.setWidth 32

/-- (imm16 << 16) | (v & 0x0000FFFF) (R177). -/
def withHighHalf (v : Word) (imm16 : BitVec 16) : Word := (imm16.setWidth 32 <<< 16) ||| (v &&& 0x0000FFFF)

end Sys2Proof.Machine
end

