-- ==== Sys2Proof/Machine/Cycle.lean ====
section
/-! DEFINITION. The stages of a step common to all instructions (40_execution_cycle R120 to R132), in the priority of
60_exceptions R271, and the placing of a word where the next step fetches. The meaning that runs last is an argument. -/

namespace Sys2Proof.Machine

/-- A step's precondition is run = Running (R132); from Stopped no step exists (R120, R270; log 5). -/
def whileRunning (s : State) (k : State → Out) : Out :=
  match s.run with
  | .running => k s
  | .stopped c => .fault (.stopped c)

/-- The budget is spent: steps = MAX_STEPS; never so when it is unbounded (R121). -/
def budgetSpent (s : State) : Bool := decide (s.maxSteps = some s.steps)

/-- The budget check (R121): StepBudget(steps) with nothing changed, or the step is counted. -/
def budgetCheck (s : State) (k : State → Out) : Out :=
  if budgetSpent s then raise s (.stepBudget s.steps) else k (s.setSteps (s.steps + 1))

/-- The fetch (R122): PcOutOfRange(pc), or the word at pc. -/
def fetch (s : State) (k : Word → Out) : Out :=
  if inStore s.pc then k (s.instrWord s.pc) else raise s (.pcOutOfRange s.pc)

/-- The decode (R123, R124): InvalidOpcode(T, w), or the instruction. -/
def decodeStage (opc : OpcodeMap) (w : Word) (s : State) (k : Instr → Out) : Out :=
  match decodeWith opc w with
  | .ok i => k i
  | .error (.invalidOpcode w') => raise s (.invalidOpcode s.pc w')

/-- The whole step (R132) with the meanings it dispatches to. The halt test (R125) is halt's own meaning, which has no
operand check and no pc update; the operand check (R127) opens every meaning. -/
def cycle (opc : OpcodeMap) (meaning : Instr → State → Out) (s : State) : Out :=
  whileRunning s fun s => budgetCheck s fun s => fetch s fun w => decodeStage opc w s fun i => meaning i s

/-- The instruction store with w placed at pc, where the next step fetches; a pc above 32767 fetches nothing (log 17). -/
def placeAtPc (s : State) (w : Word) : State :=
  if inStore s.pc then { s with imem := s.imem.write s.pc w } else s

/-- The three dispatch categories (R126); halt has none (R250). -/
inductive Category where
  | branchJump
  | memory
  | registerAlu
  deriving DecidableEq, Repr

/-- The category of a mnemonic, none for halt (R126, decision D5 for call and ret; log 9). -/
def categoryOf : Mnemonic → Option Category
  | .add | .sub | .xor | .or | .and | .mult | .div | .cmp => some .registerAlu
  | .asl | .asr | .lsl | .lsr => some .registerAlu
  | .inc | .dec | .zeros | .passnota | .passa | .lcl | .lch => some .registerAlu
  | .push | .pop => some .registerAlu
  | .load | .store => some .memory
  | .j | .jal | .jr | .beq | .bne | .call | .ret => some .branchJump
  | .halt => none

end Sys2Proof.Machine
end

