-- ==== Sys2Proof/Machine/Binary.lean ====
section
/-! DEFINITION. The two-source ALU instructions (41_alu_binary R150 to R158). -/

namespace Sys2Proof.Machine

/-- The shape of R150: read x[f1] and x[f2], write the result of op to x[f3], pc <- T + 1. -/
def binaryAlu (op : Word → Word → Word) (rc ra rb : Field8) (s : State) : Out :=
  withReg ra s fun a => withReg rb s fun b => withReg rc s fun c => writeBack c (op (s.reg a) (s.reg b)) s

/-- u32(a + b) (R151). -/
def aluAdd (a b : Word) : Word := u32 (a.toNat + b.toNat)

/-- u32(a - b) (R152). -/
def aluSub (a b : Word) : Word := u32 ((a.toNat : Int) - b.toNat)

/-- u32(a * b) (R156). -/
def aluMult (a b : Word) : Word := u32 (a.toNat * b.toNat)

/-- 0 if b = 0, else the unsigned floor quotient (R157). -/
def aluDiv (a b : Word) : Word := if b = 0 then 0 else u32 (a.toNat / b.toNat : Nat)

/-- CMP_FN(a, b): the optional value in the first row of the parameter for these operands, none where it is undefined
(00_scope R8). -/
def cmpLookup (fn : CmpFn) (a b : Word) : Option (Option Word) :=
  (fn.find? (fun e => e.a == a && e.b == b)).map CmpEntry.value

/-- add (R151). -/
def execAdd (rc ra rb : Field8) (s : State) : Out := binaryAlu aluAdd rc ra rb s

/-- sub (R152). -/
def execSub (rc ra rb : Field8) (s : State) : Out := binaryAlu aluSub rc ra rb s

/-- xor (R153). -/
def execXor (rc ra rb : Field8) (s : State) : Out := binaryAlu (fun a b => a ^^^ b) rc ra rb s

/-- or (R154). -/
def execOr (rc ra rb : Field8) (s : State) : Out := binaryAlu (fun a b => a ||| b) rc ra rb s

/-- and (R155). -/
def execAnd (rc ra rb : Field8) (s : State) : Out := binaryAlu (fun a b => a &&& b) rc ra rb s

/-- mult (R156). -/
def execMult (rc ra rb : Field8) (s : State) : Out := binaryAlu aluMult rc ra rb s

/-- div (R157): division by zero yields 0 and raises nothing. -/
def execDiv (rc ra rb : Field8) (s : State) : Out := binaryAlu aluDiv rc ra rb s

/-- cmp (R158): x[f3] <- v where CMP_FN(x[f1], x[f2]) = some v; where it is defined with no value, cmp completes and writes
no register ("if it writes anything"); where it is undefined, the stop Refused(T, cmp) of R265 (log 3). -/
def execCmp (rc ra rb : Field8) (s : State) : Out :=
  withReg ra s fun a => withReg rb s fun b => withReg rc s fun c =>
    match cmpLookup s.cmpFn (s.reg a) (s.reg b) with
    | some (some v) => writeBack c v s
    | some none => .next s.advance
    | none => raise s (.refused s.pc .cmp)

end Sys2Proof.Machine
end

