-- ==== Sys2Proof/Machine/Flags.lean ====
section
/-! DEFINITION. The hardware has no flags, condition codes or predicates (10_state R33): no operation here computes one.
A conditional branch compares two registers directly, and its condition is stored nowhere. -/

namespace Sys2Proof.Machine

/-- The condition of beq, and negated of bne: equality of the two 32-bit values (46_branch_jump R233, R234). -/
def regsEqual (s : State) (a b : Reg) : Bool := decide (s.reg a = s.reg b)

end Sys2Proof.Machine
end

