-- ==== Sys2Proof/Machine/Branch.lean ====
section
/-! DEFINITION. Jumps and branches (46_branch_jump R230 to R236). A target is never checked here: the next step's fetch
does that (R235). -/

namespace Sys2Proof.Machine

/-- j (R230). -/
def execJ (addr24 : BitVec 24) (s : State) : Out := .next (s.setPc (basePlusAddr s addr24))

/-- jal (R231): x[31] <- T + 1, then the jump. -/
def execJal (addr24 : BitVec 24) (s : State) : Out :=
  .next ((s.setReg sp (linkWord s)).setPc (basePlusAddr s addr24))

/-- jr (R232). -/
def execJr (ra : Field8) (s : State) : Out := withReg ra s fun a => .next (s.setPc (basePlusReg s a))

/-- BASE + addr8 if the condition holds, else T + 1 (R233, R234). -/
def branchIf (taken : Bool) (addr8 : Field8) (s : State) : Out :=
  .next (if taken then s.setPc (basePlusAddr s addr8) else s.advance)

/-- beq (R233). -/
def execBeq (ra rb addr8 : Field8) (s : State) : Out :=
  withReg ra s fun a => withReg rb s fun b => branchIf (regsEqual s a b) addr8 s

/-- bne (R234). -/
def execBne (ra rb addr8 : Field8) (s : State) : Out :=
  withReg ra s fun a => withReg rb s fun b => branchIf (!regsEqual s a b) addr8 s

end Sys2Proof.Machine
end

