-- ==== Sys2Proof/Machine/LoadStore.lean ====
section
/-! DEFINITION. load and store (45_load_store R220 to R222). -/

namespace Sys2Proof.Machine

/-- load (R221): EA = BASE + x[f1]; on a bad address nothing has changed. -/
def execLoad (rc ra : Field8) (s : State) : Out :=
  withReg ra s fun a => withReg rc s fun c => memRead (basePlusReg s a) s fun v => writeBack c v s

/-- store (R222): data x[f1] to EA = BASE + x[f2]. -/
def execStore (ra rb : Field8) (s : State) : Out :=
  withReg ra s fun a => withReg rb s fun b => memWrite (basePlusReg s b) (s.reg a) s fun t => .next t.advance

end Sys2Proof.Machine
end

