-- ==== Sys2Proof/Machine/Unary.lean ====
section
/-! DEFINITION. One-register, move and constant instructions (42_alu_unary_const R170 to R177). -/

namespace Sys2Proof.Machine

/-- x[f3] <- op x[f3] (inc, dec, zeros, lcl, lch). -/
def updateReg (op : Word → Word) (rc : Field8) (s : State) : Out :=
  withReg rc s fun c => writeBack c (op (s.reg c)) s

/-- x[f3] <- op x[f1] (passnota, passa; the shifts). -/
def moveReg (op : Word → Word) (rc ra : Field8) (s : State) : Out :=
  withReg ra s fun a => withReg rc s fun c => writeBack c (op (s.reg a)) s

/-- inc (R171). -/
def execInc (rc : Field8) (s : State) : Out := updateReg (fun v => u32 (v.toNat + 1)) rc s

/-- dec (R172). -/
def execDec (rc : Field8) (s : State) : Out := updateReg (fun v => u32 ((v.toNat : Int) - 1)) rc s

/-- zeros (R173). -/
def execZeros (rc : Field8) (s : State) : Out := updateReg (fun _ => 0) rc s

/-- passnota (R174): 0xFFFFFFFF - x[f1], the complement of all 32 bits. -/
def execPassnota (rc ra : Field8) (s : State) : Out := moveReg (fun v => ~~~v) rc ra s

/-- passa (R175). -/
def execPassa (rc ra : Field8) (s : State) : Out := moveReg (fun v => v) rc ra s

/-- lcl (R176): the low half replaced, the high half kept. -/
def execLcl (rc : Field8) (imm16 : BitVec 16) (s : State) : Out := updateReg (fun v => withLowHalf v imm16) rc s

/-- lch (R177): the high half replaced, the low half kept. -/
def execLch (rc : Field8) (imm16 : BitVec 16) (s : State) : Out := updateReg (fun v => withHighHalf v imm16) rc s

end Sys2Proof.Machine
end

