-- ==== Sys2Proof/Machine/Shift.lean ====
section
/-! DEFINITION. The shifts by one place (43_shifts R190 to R194). rb is encoded and ignored, and not checked. -/

namespace Sys2Proof.Machine

/-- u32(v << 1): bit 31 is lost, bit 0 becomes 0 (R190). -/
def shiftLeftOne (v : Word) : Word := v <<< 1

/-- v >> 1: bit 0 is lost, bit 31 becomes 0, also for asr (R190, decision D13; log 16). -/
def shiftRightOne (v : Word) : Word := v >>> 1

/-- asl (R191). -/
def execAsl (rc ra _rb : Field8) (s : State) : Out := moveReg shiftLeftOne rc ra s

/-- asr (R192): no sign fill. -/
def execAsr (rc ra _rb : Field8) (s : State) : Out := moveReg shiftRightOne rc ra s

/-- lsl (R193), identical to asl. -/
def execLsl (rc ra _rb : Field8) (s : State) : Out := moveReg shiftLeftOne rc ra s

/-- lsr (R194), identical to asr. -/
def execLsr (rc ra _rb : Field8) (s : State) : Out := moveReg shiftRightOne rc ra s

end Sys2Proof.Machine
end

