-- ==== Sys2Proof/Machine/Stack.lean ====
section
/-! DEFINITION. push, pop, call and ret (44_stack_call R200 to R205). Each sub-step takes effect at once, in the rule's
order (decision D9; logs 7, 8). -/

namespace Sys2Proof.Machine

/-- push (R200): decrement x[31], then store x[f1], read after the decrement, at x[31]. -/
def execPush (ra : Field8) (s : State) : Out :=
  withReg ra s fun a => memWrite (stackAddr (decSp s)) ((decSp s).reg a) (decSp s) fun t => .next t.advance

/-- pop (R201): load the word at x[31] into x[f2], then increment x[31]. -/
def execPop (rc : Field8) (s : State) : Out :=
  withReg rc s fun c => memRead (stackAddr s) s fun v => .next (incSp (s.setReg c v)).advance

/-- call (R202): decrement x[31], store T + 1 at x[31], pc <- x[f1], read after the decrement; no BASE. -/
def execCall (ra : Field8) (s : State) : Out :=
  withReg ra s fun a =>
    memWrite (stackAddr (decSp s)) (linkWord s) (decSp s) fun t => .next (t.setPc ((decSp s).reg a).toNat)

/-- ret (R203): pc <- BASE + x[31] and nothing else. -/
def execRet (s : State) : Out := .next (s.setPc (basePlusReg s sp))

end Sys2Proof.Machine
end

