-- ==== Sys2Proof/Machine/System.lean ====
section
/-! DEFINITION. halt, the only system-level instruction (47_halt R250, R251). -/

namespace Sys2Proof.Machine

/-- halt (R250): the stop Halt(T); no register, no cell and not pc is written. -/
def execHalt (s : State) : Out := raise s (.halt s.pc)

end Sys2Proof.Machine
end

