-- ==== Sys2Proof/Machine/Dispatch.lean ====
section
/-! DEFINITION. The meaning of each instruction (40_execution_cycle R128): one arm per constructor. -/

namespace Sys2Proof.Machine

def exec (i : Instr) (s : State) : Host.Outcome State Fault Refusal :=
  match i with
  | .add rc ra rb => Sys2Proof.Machine.execAdd rc ra rb s
  | .sub rc ra rb => Sys2Proof.Machine.execSub rc ra rb s
  | .xor rc ra rb => Sys2Proof.Machine.execXor rc ra rb s
  | .or rc ra rb => Sys2Proof.Machine.execOr rc ra rb s
  | .and rc ra rb => Sys2Proof.Machine.execAnd rc ra rb s
  | .mult rc ra rb => Sys2Proof.Machine.execMult rc ra rb s
  | .div rc ra rb => Sys2Proof.Machine.execDiv rc ra rb s
  | .cmp rc ra rb => Sys2Proof.Machine.execCmp rc ra rb s
  | .asl rc ra rb => Sys2Proof.Machine.execAsl rc ra rb s
  | .asr rc ra rb => Sys2Proof.Machine.execAsr rc ra rb s
  | .lsl rc ra rb => Sys2Proof.Machine.execLsl rc ra rb s
  | .lsr rc ra rb => Sys2Proof.Machine.execLsr rc ra rb s
  | .inc rc => Sys2Proof.Machine.execInc rc s
  | .dec rc => Sys2Proof.Machine.execDec rc s
  | .zeros rc => Sys2Proof.Machine.execZeros rc s
  | .passnota rc ra => Sys2Proof.Machine.execPassnota rc ra s
  | .passa rc ra => Sys2Proof.Machine.execPassa rc ra s
  | .lcl rc imm16 => Sys2Proof.Machine.execLcl rc imm16 s
  | .lch rc imm16 => Sys2Proof.Machine.execLch rc imm16 s
  | .push ra => Sys2Proof.Machine.execPush ra s
  | .pop rc => Sys2Proof.Machine.execPop rc s
  | .call ra => Sys2Proof.Machine.execCall ra s
  | .ret => Sys2Proof.Machine.execRet s
  | .load rc ra => Sys2Proof.Machine.execLoad rc ra s
  | .store ra rb => Sys2Proof.Machine.execStore ra rb s
  | .j addr24 => Sys2Proof.Machine.execJ addr24 s
  | .jal addr24 => Sys2Proof.Machine.execJal addr24 s
  | .jr ra => Sys2Proof.Machine.execJr ra s
  | .beq ra rb addr8 => Sys2Proof.Machine.execBeq ra rb addr8 s
  | .bne ra rb addr8 => Sys2Proof.Machine.execBne ra rb addr8 s
  | .halt => Sys2Proof.Machine.execHalt s

end Sys2Proof.Machine
end

