-- ==== Sys2Proof/Machine/Step.lean ====
section
/-! DEFINITION. One step of the core (40_execution_cycle R132), and the host's placing of an instruction. -/

namespace Sys2Proof.Machine

/-- One step under an opcode map, the parameter OPC of 00_scope R8. -/
def stepWith (opc : OpcodeMap) (s : State) : Host.Outcome State Fault Refusal := cycle opc exec s

/-- One step under the default opcode map (R91; log 2). -/
def step (s : State) : Host.Outcome State Fault Refusal := stepWith defaultOpc s

/-- The state with the instruction whose bits are w (nbits of them, the rest 0) where step fetches next. It stands for
the host's load of a program (R296; log 17). -/
def State.withFetchWord (s : State) (nbits w : Nat) : State := placeAtPc s (BitVec.ofNat 32 (w % 2 ^ nbits))

end Sys2Proof.Machine
end

