-- ==== Sys2Proof/Machine/Text.lean ====
section
/-! DEFINITION. The line-oriented text the assembler and the loader read (30_encoding R81, R100; 70_reset R292): comments,
tokens, decimal numerals, and the 32-character binary form of a word. -/

namespace Sys2Proof.Machine

/-- A line of text. -/
abbrev Line := List Char

/-- The line without its comment: "text from # to the end of the line" is removed (R100). -/
def stripComment (l : Line) : Line := l.takeWhile (fun c => c != '#')

/-- White space within a line: the spaces and tabs R100 names, and the carriage return, which the spec does not name
(DESIGN CHOICE; log 23). -/
def isBlank (c : Char) : Bool := c == ' ' || c == '\t' || c == '\r'

/-- What separates two tokens of an assembly line: "whitespace/commas" (R100). -/
def isSeparator (c : Char) : Bool := isBlank c || c == ','

/-- One more character in front of the tokens of the text after it: a separator opens a new token, any other character
joins the first. -/
def pushChar (sep : Char → Bool) (c : Char) : List Line → List Line
  | [] => if sep c then [[]] else [[c]]
  | t :: ts => if sep c then [] :: t :: ts else (c :: t) :: ts

/-- The tokens of a line: its maximal runs of characters that separate nothing (R100). -/
def tokens (sep : Char → Bool) (l : Line) : List Line :=
  (l.foldr (pushChar sep) [[]]).filter (fun t => !t.isEmpty)

/-- The value of a digit character. -/
def digitValue (c : Char) : Nat := c.toNat - 48

/-- An unsigned decimal numeral (R102, R104), none if the text is not one. -/
def parseDecimal (t : Line) : Option Nat :=
  if !t.isEmpty && t.all (fun c => '0' ≤ c && c ≤ '9') then some (t.foldl (fun n c => 10 * n + digitValue c) 0) else none

/-- A 32-character binary literal, leftmost character most significant (R81, R294), none if the text is not one. -/
def parseBinary (t : Line) : Option Word :=
  if t.length == 32 && t.all (fun c => c == '0' || c == '1')
  then some (BitVec.ofNat 32 (t.foldl (fun n c => 2 * n + digitValue c) 0)) else none

/-- The textual binary form of a word: 32 characters, the leftmost is w[31] (R81). -/
def binaryText (w : Word) : Line := (List.range 32).map (fun d => if w.getLsbD (31 - d) then '1' else '0')

/-- The directive word (R102, R293). -/
def addressWord : Line := ['a', 'd', 'd', 'r', 'e', 's', 's']

end Sys2Proof.Machine
end

