-- ==== Sys2Proof/Machine/Assembler.lean ====
section
/-! DEFINITION. The assembler (30_encoding R100 to R108), the toolchain whose operand syntax and field placement the
formats record (00_scope R4). Nothing of it is a hardware event. -/

namespace Sys2Proof.Machine

/-- The toolchain errors (R107). The last two are the model's own names for what R104 and R105 leave unnamed (log 21). -/
inductive AsmError where
  | unknownMnemonic
  | invalidOperandCount
  | invalidAddressDirective
  | malformedOperand
  | operandOutOfRange
  deriving DecidableEq, Repr

/-- How a mnemonic is written (R90). -/
def mnemonicText : Mnemonic → Line
  | .add => "add".toList
  | .sub => "sub".toList
  | .xor => "xor".toList
  | .or => "or".toList
  | .and => "and".toList
  | .mult => "mult".toList
  | .div => "div".toList
  | .cmp => "cmp".toList
  | .asl => "asl".toList
  | .asr => "asr".toList
  | .lsl => "lsl".toList
  | .lsr => "lsr".toList
  | .inc => "inc".toList
  | .dec => "dec".toList
  | .zeros => "zeros".toList
  | .passnota => "passnota".toList
  | .passa => "passa".toList
  | .lcl => "lcl".toList
  | .lch => "lch".toList
  | .push => "push".toList
  | .pop => "pop".toList
  | .call => "call".toList
  | .ret => "ret".toList
  | .load => "load".toList
  | .store => "store".toList
  | .j => "j".toList
  | .jal => "jal".toList
  | .jr => "jr".toList
  | .beq => "beq".toList
  | .bne => "bne".toList
  | .halt => "halt".toList

/-- The mnemonic a token names, matched case-insensitively (R101). -/
def mnemonicOf (t : Line) : Option Mnemonic := Mnemonic.all.find? (fun m => mnemonicText m == t.map Char.toLower)

/-- An operand is a register or an unsigned number of a given width (R103, R104). -/
inductive OperandKind where
  | register
  | number (width : Nat)
  deriving DecidableEq, Repr

/-- The operands of a mnemonic in the assembler's order (R88, R103). -/
def operandKinds : Mnemonic → List OperandKind
  | .add | .sub | .xor | .or | .and | .mult | .div | .cmp => [.register, .register, .register]
  | .asl | .asr | .lsl | .lsr => [.register, .register, .register]
  | .inc | .dec | .zeros => [.register]
  | .passnota | .passa | .load | .store => [.register, .register]
  | .lcl | .lch => [.register, .number 16]
  | .push | .pop | .call | .jr => [.register]
  | .ret | .halt => []
  | .j | .jal => [.number 24]
  | .beq | .bne => [.register, .register, .number 8]

/-- One operand (R104). A number too large for its field is rejected if ASM_REJECT_OUT_OF_RANGE, else truncated (R105). -/
def parseOperand (reject : Bool) (kind : OperandKind) (t : Line) : Except AsmError Nat :=
  match kind with
  | .register =>
    match t with
    | c :: ds =>
      if c = 'r' ∨ c = 'R' then match parseDecimal ds with
        | some n => if n < 32 then .ok n else .error .malformedOperand
        | none => .error .malformedOperand
      else .error .malformedOperand
    | [] => .error .malformedOperand
  | .number width =>
    match parseDecimal t with
    | some n => if n < 2 ^ width then .ok n else if reject then .error .operandOutOfRange else .ok (n % 2 ^ width)
    | none => .error .malformedOperand

/-- The operands of a line, kinds and tokens side by side; their counts must agree (R101). -/
def parseOperands (reject : Bool) : List OperandKind → List Line → Except AsmError (List Nat)
  | [], [] => .ok []
  | k :: ks, t :: ts =>
    match parseOperand reject k t with
    | .error e => .error e
    | .ok n => match parseOperands reject ks ts with
      | .error e => .error e
      | .ok ns => .ok (n :: ns)
  | _, _ => .error .invalidOperandCount

/-- The instruction of a mnemonic and its operand values in the assembler's order (R103). -/
def buildInstr (m : Mnemonic) (v : List Nat) : Instr :=
  let f (k : Nat) : Field8 := BitVec.ofNat 8 (v.getD k 0)
  match m with
  | .add => .add (f 0) (f 1) (f 2)
  | .sub => .sub (f 0) (f 1) (f 2)
  | .xor => .xor (f 0) (f 1) (f 2)
  | .or => .or (f 0) (f 1) (f 2)
  | .and => .and (f 0) (f 1) (f 2)
  | .mult => .mult (f 0) (f 1) (f 2)
  | .div => .div (f 0) (f 1) (f 2)
  | .cmp => .cmp (f 0) (f 1) (f 2)
  | .asl => .asl (f 0) (f 1) (f 2)
  | .asr => .asr (f 0) (f 1) (f 2)
  | .lsl => .lsl (f 0) (f 1) (f 2)
  | .lsr => .lsr (f 0) (f 1) (f 2)
  | .inc => .inc (f 0)
  | .dec => .dec (f 0)
  | .zeros => .zeros (f 0)
  | .passnota => .passnota (f 0) (f 1)
  | .passa => .passa (f 0) (f 1)
  | .lcl => .lcl (f 0) (BitVec.ofNat 16 (v.getD 1 0))
  | .lch => .lch (f 0) (BitVec.ofNat 16 (v.getD 1 0))
  | .push => .push (f 0)
  | .pop => .pop (f 0)
  | .call => .call (f 0)
  | .ret => .ret
  | .load => .load (f 0) (f 1)
  | .store => .store (f 0) (f 1)
  | .j => .j (BitVec.ofNat 24 (v.getD 0 0))
  | .jal => .jal (BitVec.ofNat 24 (v.getD 0 0))
  | .jr => .jr (f 0)
  | .beq => .beq (f 0) (f 1) (f 2)
  | .bne => .bne (f 0) (f 1) (f 2)
  | .halt => .halt

/-- The instruction a line's mnemonic and operand tokens name (R101, R103). -/
def parseInstr (reject : Bool) (t : Line) (ops : List Line) : Except AsmError Instr :=
  match mnemonicOf t with
  | none => .error .unknownMnemonic
  | some m =>
    if ops.length ≠ (operandKinds m).length then .error .invalidOperandCount
    else match parseOperands reject (operandKinds m) ops with
      | .ok v => .ok (buildInstr m v)
      | .error e => .error e

/-- One source line (R100 to R102): nothing, the directive copied, or the 32 characters of the instruction's word. A line
of separators alone, commas among them, has no first token and is dropped like a blank one; the spec does not say what
becomes of it (DESIGN CHOICE; log 24). -/
def assembleLine (opc : OpcodeMap) (reject : Bool) (l : Line) : Except AsmError (Option Line) :=
  match tokens isSeparator (stripComment l) with
  | [] => .ok none
  | t :: ops =>
    if t = addressWord then match ops with
      | [n] => if (parseDecimal n).isSome then .ok (some (stripComment l)) else .error .invalidAddressDirective
      | _ => .error .invalidAddressDirective
    else match parseInstr reject t ops with
      | .ok i => .ok (some (binaryText (encodeWith opc i)))
      | .error e => .error e

/-- The output lines in source order (R106); the first error aborts and names its line (R107), the first being line n. -/
def assembleFrom (opc : OpcodeMap) (reject : Bool) (n : Nat) : List Line → Except (Nat × AsmError) (List Line)
  | [] => .ok []
  | l :: ls =>
    match assembleLine opc reject l with
    | .error e => .error (n, e)
    | .ok out => match assembleFrom opc reject (n + 1) ls with
      | .error e => .error e
      | .ok outs => .ok (out.toList ++ outs)

/-- Assembling a source text; reject is the parameter ASM_REJECT_OUT_OF_RANGE (R105). -/
def assemble (opc : OpcodeMap) (reject : Bool) (ls : List Line) : Except (Nat × AsmError) (List Line) :=
  assembleFrom opc reject 1 ls

end Sys2Proof.Machine
end

