-- ==== Sys2Proof/Machine/Loader.lean ====
section
/-! DEFINITION. The host's side of the interface: the reset procedure (70_reset R290, R296), the loader whose output is
the reset content of the instruction store and BASE (R292 to R295, R297), and observation after a stop (R301). -/

namespace Sys2Proof.Machine

/-- The launch parameters the host fixes before a run (00_scope R7; R296), and CMP_FN (R8; log 3). -/
structure Launch where
  imem : Memory
  base : BaseAddr
  maxSteps : Option Nat
  cmpFn : CmpFn
  deriving DecidableEq, Repr

/-- The reset procedure (R290): every register and data cell 0, the image in the instruction store, BASE and MAX_STEPS
set, pc <- BASE, steps <- 0, run <- Running. It is the only way to start a run and to leave Stopped, and takes nothing
from the state before it: nothing survives from one run to the next. -/
def State.launch (p : Launch) : State where
  x := Vector.replicate 32 0
  pc := p.base.val
  imem := p.imem
  dmem := []
  base := p.base
  run := .running
  steps := 0
  maxSteps := p.maxSteps
  cmpFn := p.cmpFn

/-- Why an image is refused, not loaded (R297, decision D15). -/
inductive LoadError where
  | malformedLine
  | addressOutOfRange
  deriving DecidableEq, Repr

/-- A line of the program image that is not blank (R293, R294). -/
inductive ImageItem where
  | address (n : Nat)
  | word (w : Word)
  deriving DecidableEq, Repr

/-- What follows `address` on a line that starts with it, none on any other line (R293). Separators before the word do
not count, as in the assembler's split (R100; log 20). -/
def directiveRest (l : Line) : Option Line :=
  let body := l.dropWhile isSeparator
  if body.take addressWord.length = addressWord then some (body.drop addressWord.length) else none

/-- The operand of a directive: 0 if absent, else one decimal numeral (R293); anything else is refused (R297). -/
def parseDirective (rest : Line) : Except LoadError ImageItem :=
  match tokens isSeparator rest with
  | [] => .ok (.address 0)
  | [t] => match parseDecimal t with
    | some n => .ok (.address n)
    | none => .error .malformedLine
  | _ => .error .malformedLine

/-- A line that is no directive: nothing if it is blank (R292), else the word of its 32 binary characters (R294). -/
def parseWordLine (l : Line) : Except LoadError (Option ImageItem) :=
  match tokens isBlank l with
  | [] => .ok none
  | [t] => match parseBinary t with
    | some w => .ok (some (.word w))
    | none => .error .malformedLine
  | _ => .error .malformedLine

/-- One line of the image (R292 to R294): nothing, a directive, or a binary line (log 20). -/
def parseImageLine (l : Line) : Except LoadError (Option ImageItem) :=
  match directiveRest (stripComment l) with
  | some rest => (parseDirective rest).map some
  | none => parseWordLine (stripComment l)

/-- The loader between two lines: the write cursor, the address-directive history, the cells written. -/
structure LoaderState where
  cursor : Nat
  history : List BaseAddr
  imem : Memory
  deriving DecidableEq, Repr

/-- The write cursor starts at 0 (R294). -/
def LoaderState.start : LoaderState := { cursor := 0, history := [], imem := [] }

/-- A directive joins the history and moves the cursor (R293); a word is stored at the cursor, which advances (R294). -/
def LoaderState.item (st : LoaderState) : ImageItem → Except LoadError LoaderState
  | .address n =>
    if h : n < storeWords then .ok { st with cursor := n, history := st.history ++ [⟨n, h⟩] }
    else .error .addressOutOfRange
  | .word w =>
    if inStore st.cursor then .ok { st with cursor := st.cursor + 1, imem := st.imem.write st.cursor w }
    else .error .addressOutOfRange

/-- The loader over the rest of the image. -/
def LoaderState.lines : LoaderState → List Line → Except LoadError LoaderState
  | st, [] => .ok st
  | st, l :: ls =>
    match parseImageLine l with
    | .error e => .error e
    | .ok none => LoaderState.lines st ls
    | .ok (some it) =>
      match st.item it with
      | .error e => .error e
      | .ok st' => LoaderState.lines st' ls

/-- The loader's result: the instruction store and the start address. -/
structure Image where
  imem : Memory
  base : BaseAddr
  deriving DecidableEq, Repr

/-- Loading an image (R295): the start address is the first entry of the history, or 0 if it is empty. -/
def loadImage (ls : List Line) : Except LoadError Image :=
  match LoaderState.start.lines ls with
  | .ok st => .ok { imem := st.imem, base := st.history.head?.getD 0 }
  | .error e => .error e

/-- The host load transaction and reset (R296), with CMP_FN at its default. -/
def boot (ls : List Line) (maxSteps : Option Nat) : Except LoadError State :=
  match loadImage ls with
  | .ok img => .ok (State.launch { imem := img.imem, base := img.base, maxSteps := maxSteps, cmpFn := [] })
  | .error e => .error e

/-- What the host may read after a stop (R301). -/
structure Observation where
  cause : Cause
  pc : Nat
  steps : Nat
  x : Vector Word 32
  dmem : Memory
  deriving DecidableEq, Repr

/-- Observation: possible after a stop only; during a run the host does nothing to the core (R301). -/
def State.observe (s : State) : Option Observation :=
  match s.run with
  | .running => none
  | .stopped c => some { cause := c, pc := s.pc, steps := s.steps, x := s.x, dmem := s.dmem }

end Sys2Proof.Machine
end

