-- ==== Sys2Proof/Safety.lean ====
section
/-! DEFINITION. What claims are said in: the kinds of stop, the invariant of the machine, which registers an instruction
reads and writes, and frames (what an instruction leaves as it was). -/

namespace Sys2Proof.Machine

/-- The kinds of stop (60_exceptions R260, 40_execution_cycle R134). -/
inductive EndKind where
  | normal
  | forced
  | failure
  | modelRefusal
  deriving DecidableEq, Repr

/-- Halt and PcOutOfRange are normal ends, StepBudget a forced stop, the range and opcode causes failures (R134, R260). -/
def Cause.kind : Cause → EndKind
  | .halt _ => .normal
  | .pcOutOfRange _ => .normal
  | .stepBudget _ => .forced
  | .invalidOpcode _ _ => .failure
  | .dataAddressOutOfRange _ => .failure
  | .registerIndexOutOfRange _ _ => .failure
  | .refused _ _ => .modelRefusal

/-- A run is safe so far: it goes on, or it ended without a failure and without leaving the model's meanings. -/
def State.safe (s : State) : Bool :=
  match s.run with
  | .running => true
  | .stopped c => decide (c.kind = .normal) || decide (c.kind = .forced)

/-- What a stop records, held against the state it leaves: the info column of R260, and pc left at T (R266). -/
def Cause.Agrees (s : State) : Cause → Prop
  | .halt t => t = s.pc
  | .pcOutOfRange p => p = s.pc ∧ storeWords ≤ p
  | .stepBudget n => n = s.steps ∧ s.maxSteps = some n
  | .invalidOpcode t w => t = s.pc ∧ w = s.instrWord s.pc
  | .dataAddressOutOfRange ea => storeWords ≤ ea
  | .registerIndexOutOfRange t i => t = s.pc ∧ 32 ≤ i ∧ i < 256
  | .refused t m => t = s.pc ∧ m = .cmp

/-- The invariant of the machine: both stores in canonical form within their 32768 addresses (R51, R52), pc within 33
bits (R26), the budget never overrun (R121), and a stop's info true of the state it left (R260). -/
structure State.Inv (s : State) : Prop where
  imem_wf : s.imem.wf = true
  dmem_wf : s.dmem.wf = true
  pc_le : s.pc ≤ 0x100007FFE
  steps_le : ∀ n, s.maxSteps = some n → s.steps ≤ n
  stop_agrees : ∀ c, s.run = .stopped c → c.Agrees s

/-- The register numbers in the "reads" column of 10_state R23, 31 for the implicit x[31]. For cmp the column is open and
the operands of CMP_FN stand here (R158, decision D3; log 3). -/
def readRegs : Instr → List Nat
  | .add _ ra rb => [ra.toNat, rb.toNat]
  | .sub _ ra rb => [ra.toNat, rb.toNat]
  | .xor _ ra rb => [ra.toNat, rb.toNat]
  | .or _ ra rb => [ra.toNat, rb.toNat]
  | .and _ ra rb => [ra.toNat, rb.toNat]
  | .mult _ ra rb => [ra.toNat, rb.toNat]
  | .div _ ra rb => [ra.toNat, rb.toNat]
  | .cmp _ ra rb => [ra.toNat, rb.toNat]
  | .asl _ ra _ => [ra.toNat]
  | .asr _ ra _ => [ra.toNat]
  | .lsl _ ra _ => [ra.toNat]
  | .lsr _ ra _ => [ra.toNat]
  | .inc rc => [rc.toNat]
  | .dec rc => [rc.toNat]
  | .zeros _ => []
  | .passnota _ ra => [ra.toNat]
  | .passa _ ra => [ra.toNat]
  | .lcl rc _ => [rc.toNat]
  | .lch rc _ => [rc.toNat]
  | .push ra => [ra.toNat, 31]
  | .pop _ => [31]
  | .call ra => [ra.toNat, 31]
  | .ret => [31]
  | .load _ ra => [ra.toNat]
  | .store ra rb => [ra.toNat, rb.toNat]
  | .j _ => []
  | .jal _ => []
  | .jr ra => [ra.toNat]
  | .beq ra rb _ => [ra.toNat, rb.toNat]
  | .bne ra rb _ => [ra.toNat, rb.toNat]
  | .halt => []

/-- The register numbers in the "writes" column of 10_state R23; for cmp the column is open and its
destination x[f3] stands here (R158, decision D3; log 3). -/
def writtenRegs : Instr → List Nat
  | .add rc _ _ => [rc.toNat]
  | .sub rc _ _ => [rc.toNat]
  | .xor rc _ _ => [rc.toNat]
  | .or rc _ _ => [rc.toNat]
  | .and rc _ _ => [rc.toNat]
  | .mult rc _ _ => [rc.toNat]
  | .div rc _ _ => [rc.toNat]
  | .cmp rc _ _ => [rc.toNat]
  | .asl rc _ _ => [rc.toNat]
  | .asr rc _ _ => [rc.toNat]
  | .lsl rc _ _ => [rc.toNat]
  | .lsr rc _ _ => [rc.toNat]
  | .inc rc => [rc.toNat]
  | .dec rc => [rc.toNat]
  | .zeros rc => [rc.toNat]
  | .passnota rc _ => [rc.toNat]
  | .passa rc _ => [rc.toNat]
  | .lcl rc _ => [rc.toNat]
  | .lch rc _ => [rc.toNat]
  | .push _ => [31]
  | .pop rc => [rc.toNat, 31]
  | .call _ => [31]
  | .ret => []
  | .load rc _ => [rc.toNat]
  | .store _ _ => []
  | .j _ => []
  | .jal _ => [31]
  | .jr _ => []
  | .beq _ _ _ => []
  | .bne _ _ _ => []
  | .halt => []

/-- Every register but those listed is as it was. -/
def RegsKept (s t : State) (but : List Reg) : Prop := ∀ r, r ∉ but → t.reg r = s.reg r

/-- Every word of the data store is as it was. -/
def DataKept (s t : State) : Prop := ∀ a, t.dataWord a = s.dataWord a

/-- Every word of the data store is as it was, but for the one at address a. -/
def DataKeptBut (a : Nat) (s t : State) : Prop := ∀ b, b ≠ a → t.dataWord b = s.dataWord b

/-- What no instruction changes: the instruction store, BASE, MAX_STEPS, the parameter CMP_FN. -/
def LaunchKept (s t : State) : Prop :=
  t.imem = s.imem ∧ t.base = s.base ∧ t.maxSteps = s.maxSteps ∧ t.cmpFn = s.cmpFn

/-- What no instruction that completes changes: the above, the step counter (the step counts it, R121), the run state. -/
def ControlKept (s t : State) : Prop := LaunchKept s t ∧ t.steps = s.steps ∧ t.run = s.run

/-- The outcome is a next state that holds a value in register c for which P, the next pc, and nothing else new. -/
def RegisterResult (o : Out) (s : State) (c : Reg) (P : Word → Prop) : Prop :=
  ∃ t, o = .next t ∧ P (t.reg c) ∧ t.pc = s.pc + 1 ∧ RegsKept s t [c] ∧ DataKept s t ∧ ControlKept s t

/-- The outcome is a next state whose pc is the target and which is otherwise as it was. -/
def JumpResult (o : Out) (s : State) (target : Nat) : Prop :=
  ∃ t, o = .next t ∧ t.pc = target ∧ RegsKept s t [] ∧ DataKept s t ∧ ControlKept s t

/-- The outcome is a stop: the run state says so and nothing else has changed (60_exceptions R266). -/
def StopsAsIs (o : Out) (s : State) (c : Cause) : Prop := o = .next { s with run := .stopped c }

/-- A word with this opcode decodes, under every admissible opcode map, to the instruction g makes of its fields. -/
def DecodesAs (m : Mnemonic) (g : Field8 → Field8 → Field8 → Instr) : Prop :=
  ∀ opc, OpcodeMap.Admissible opc → ∀ w, opcodeField w = opc m →
    decodeWith opc w = .ok (g (field1 w) (field2 w) (field3 w))

/-- The operand check of R127 for one instruction: the first field that names no register is reported and nothing else
happens. -/
def ChecksOperands (i : Instr) : Prop :=
  ∀ s f, i.offendingField = some f → StopsAsIs (exec i s) s (.registerIndexOutOfRange s.pc f.toNat)

/-- A directive with the binary lines after it, in an image: `address`, a gap, an operand that may be absent, the words
of the lines; start is the operand's value (70_reset R293). -/
structure ImageBlock where
  gap : Line
  operand : Line
  start : Nat
  words : List Word
  deriving DecidableEq, Repr

/-- The gap holds separators only, the operand is absent with value 0 or a decimal numeral of value start, and start and
every line's address lie within the store, as R297 asks of the host. -/
def ImageBlock.Proper (b : ImageBlock) : Prop :=
  (∀ c ∈ b.gap, isSeparator c = true) ∧
  ((b.operand = [] ∧ b.start = 0) ∨ parseDecimal b.operand = some b.start) ∧
  b.start < storeWords ∧ b.start + b.words.length ≤ storeWords

/-- The lines of a block. -/
def ImageBlock.lines (b : ImageBlock) : List Line := (addressWord ++ b.gap ++ b.operand) :: b.words.map binaryText

/-- The word an image of blocks puts at address a, given the word w there before them: that of the last block that covers
a (R293, R294, R297). -/
def blocksWord : List ImageBlock → Nat → Word → Word
  | [], _, w => w
  | b :: bs, a, w =>
    blocksWord bs a (if b.start ≤ a ∧ a < b.start + b.words.length then b.words.getD (a - b.start) 0 else w)

end Sys2Proof.Machine
end

