-- ==== Sys2Proof/Certificates/Slice0/Obligations.lean ====
section
/-! DEFINITION. The statements about the model, each with the rule of spec/ it comes from. Register operands of statements
about results are the 32 registers (`regField r` is the field that names r); the fields that name none are the subject of
OffendingFieldStopsTheRun. -/

open Sys2Proof Sys2Proof.Machine

/-! Encoding and decoding -/

/-- R97: for every admissible opcode map, decoding the canonical word of any instruction, with any values in its operand
fields, gives that instruction back. -/
def Obligations.DecodeEncodeRoundTrip : Prop :=
  ∀ opc : OpcodeMap, opc.Admissible → ∀ i : Instr, decodeWith opc (encodeWith opc i) = .ok i

/-- R92: the opcode field alone decides which instruction a word is. -/
def Obligations.OpcodeFieldAloneSelects : Prop :=
  ∀ opc : OpcodeMap, opc.Admissible → ∀ (w : Word) (m : Mnemonic),
    (∃ i, decodeWith opc w = .ok i ∧ i.mnemonic = m) ↔ opcodeField w = opc m

/-- R90, R91, R94: the default map is admissible, and under it exactly the opcodes 0x00, 0x0D and 0x20 to 0xFE are
rejected. The default map is the spec's own choice for the parameter OPC (decision D2; log 2). -/
def Obligations.DefaultMapIllegalOpcodes : Prop :=
  defaultOpc.Admissible ∧
  ∀ w : Word, decode w = .error (.invalidOpcode w) ↔
    (opcodeField w = 0x00 ∨ opcodeField w = 0x0D ∨
      (0x20 ≤ (opcodeField w).toNat ∧ (opcodeField w).toNat ≤ 0xFE))

/-- R93: halt's word is all ones under every map, and every word of opcode 0xFF, no other, decodes to halt. That the low
24 bits do not matter is the spec's decision D11 (log 12). -/
def Obligations.HaltWords : Prop :=
  (∀ opc : OpcodeMap, encodeWith opc .halt = 0xFFFFFFFF) ∧
  ∀ opc : OpcodeMap, opc.Admissible → ∀ w : Word, decodeWith opc w = .ok .halt ↔ opcodeField w = 0xFF

/-- R83 to R88, R96: where each of the 31 formats finds its operands in the word op || f1 || f2 || f3, and which fields it
ignores. Bit numbering, the formats of asl, asr, load and store, call's register operand, that every word of halt's
opcode is halt, and that unused fields are ignored are the spec's decisions D1, D4, D6 (conflict C1), D11, D17 (logs 1, 10,
11, 12, 18). -/
def Obligations.OperandsComeFromTheirFields : Prop :=
  ∀ opc : OpcodeMap, opc.Admissible → ∀ f1 f2 f3 : Field8,
    let word (m : Mnemonic) : Except DecodeReject Instr := decodeWith opc (packWord (opc m) f1 f2 f3)
    word .add = .ok (.add f3 f1 f2) ∧ word .sub = .ok (.sub f3 f1 f2) ∧ word .xor = .ok (.xor f3 f1 f2) ∧
    word .or = .ok (.or f3 f1 f2) ∧ word .and = .ok (.and f3 f1 f2) ∧ word .mult = .ok (.mult f3 f1 f2) ∧
    word .div = .ok (.div f3 f1 f2) ∧ word .cmp = .ok (.cmp f3 f1 f2) ∧
    word .asl = .ok (.asl f3 f1 f2) ∧ word .asr = .ok (.asr f3 f1 f2) ∧
    word .lsl = .ok (.lsl f3 f1 f2) ∧ word .lsr = .ok (.lsr f3 f1 f2) ∧
    word .inc = .ok (.inc f3) ∧ word .dec = .ok (.dec f3) ∧ word .zeros = .ok (.zeros f3) ∧
    word .passnota = .ok (.passnota f3 f1) ∧ word .passa = .ok (.passa f3 f1) ∧
    word .lcl = .ok (.lcl f3 (f1 ++ f2)) ∧ word .lch = .ok (.lch f3 (f1 ++ f2)) ∧
    word .push = .ok (.push f1) ∧ word .pop = .ok (.pop f2) ∧ word .call = .ok (.call f1) ∧ word .ret = .ok .ret ∧
    word .load = .ok (.load f3 f1) ∧ word .store = .ok (.store f1 f2) ∧
    word .j = .ok (.j (f1 ++ f2 ++ f3)) ∧ word .jal = .ok (.jal (f1 ++ f2 ++ f3)) ∧ word .jr = .ok (.jr f1) ∧
    word .beq = .ok (.beq f1 f2 f3) ∧ word .bne = .ok (.bne f1 f2 f3) ∧ word .halt = .ok .halt

/-- Words of spec/95_test_vectors.md under the default map, one or more of each family, decode to what they stand for. The
map itself, the formats of asr, load and store, call's register operand, the halt word that is not all ones and the ignored
fields of inc are the spec's decisions D2, D4, D6, D11, D17 (logs 2, 10, 11, 12, 18). -/
def Obligations.SampleWordsDecode : Prop :=
  decode 0x01010203 = .ok (.add 3 1 2) ∧ decode 0x18010203 = .ok (.div 3 1 2) ∧
  decode 0x1A202001 = .ok (.inc 1) ∧ decode 0x0F123401 = .ok (.lcl 1 0x1234) ∧
  decode 0x0C1F000A = .ok (.passa 10 31) ∧ decode 0x0901FF03 = .ok (.asr 3 1 255) ∧
  decode 0x1D000300 = .ok (.pop 3) ∧ decode 0x1E050000 = .ok (.call 5) ∧
  decode 0x10010004 = .ok (.load 4 1) ∧ decode 0x11020100 = .ok (.store 2 1) ∧
  decode 0x12000007 = .ok (.jal 7) ∧ decode 0x140101FF = .ok (.beq 1 1 255) ∧ decode 0xFF000000 = .ok .halt ∧
  decode 0x0D010203 = .error (.invalidOpcode 0x0D010203)

/-- R81: the textual form of a word has 32 characters, the one at position d from the left being w[31-d], and reads back
as the word. The reading of the source's bit numbers is the spec's decision D1 (log 1). -/
def Obligations.BinaryTextReadsBack : Prop :=
  ∀ w : Word, (binaryText w).length = 32 ∧
    (∀ d, d < 32 → (binaryText w)[d]? = some (if w.getLsbD (31 - d) then '1' else '0')) ∧
    parseBinary (binaryText w) = some w

/-! The step -/

/-- R120 to R132: under any opcode map, a step of a running core with budget left and pc in range whose word decodes runs
exactly the decoded instruction, with the step counted and nothing else around it; `step` is this under the default map. -/
def Obligations.StepRunsTheDecodedInstruction : Prop :=
  (∀ (opc : OpcodeMap) (s : State) (i : Instr), s.run = .running → s.maxSteps ≠ some s.steps → s.pc ≤ 32767 →
    decodeWith opc (s.instrWord s.pc) = .ok i → stepWith opc s = exec i { s with steps := s.steps + 1 }) ∧
  ∀ s : State, step s = stepWith defaultOpc s

/-- R121, R271: a spent budget stops the run before anything else, wherever pc is, with nothing changed; an unbounded or
unspent budget never does. That the check comes first is the spec's decision D12 (log 13). -/
def Obligations.SpentBudgetStopsFirst : Prop :=
  (∀ (opc : OpcodeMap) (s : State), s.run = .running → s.maxSteps = some s.steps →
    StopsAsIs (stepWith opc s) s (.stepBudget s.steps)) ∧
  ∀ (opc : OpcodeMap) (s t : State) (n : Nat), s.maxSteps ≠ some s.steps → stepWith opc s = .next t →
    t.run ≠ .stopped (.stepBudget n)

/-- R57, R262: a fetch with pc above 32767 stops the run with PcOutOfRange(pc), and changes no register, no cell and not
pc. -/
def Obligations.FetchBeyondTheStoreStops : Prop :=
  ∀ (opc : OpcodeMap) (s : State), s.run = .running → s.maxSteps ≠ some s.steps → 32767 < s.pc →
    ∃ t, stepWith opc s = .next t ∧ t.run = .stopped (.pcOutOfRange s.pc) ∧ t.pc = s.pc ∧ RegsKept s t [] ∧
      DataKept s t ∧ LaunchKept s t

/-- R124: a word whose opcode no mnemonic has stops the run with InvalidOpcode(T, w); only run and steps change. -/
def Obligations.UnmappedOpcodeStops : Prop :=
  ∀ (opc : OpcodeMap) (s : State), s.run = .running → s.maxSteps ≠ some s.steps → s.pc ≤ 32767 →
    (∀ m, opc m ≠ opcodeField (s.instrWord s.pc)) →
    StopsAsIs (stepWith opc s) { s with steps := s.steps + 1 } (.invalidOpcode s.pc (s.instrWord s.pc))

/-- R125, R261: halt raises Halt(T) at once; no register, no memory cell and not pc changes. So it does in a step whose
word decodes to halt, which counts the step: the spec's decision D12 (R121; log 13). -/
def Obligations.HaltStopsTheRun : Prop :=
  (∀ s : State, StopsAsIs (exec .halt s) s (.halt s.pc)) ∧
  ∀ (opc : OpcodeMap) (s : State), s.run = .running → s.maxSteps ≠ some s.steps → s.pc ≤ 32767 →
    decodeWith opc (s.instrWord s.pc) = .ok .halt →
    StopsAsIs (stepWith opc s) { s with steps := s.steps + 1 } (.halt s.pc)

/-- R32, R270: from a stopped core no step leads anywhere. That no step exists, rather than one that changes nothing, is
the model's reading of the spec's decision D14 (log 5). -/
def Obligations.StoppedCoreTakesNoStep : Prop :=
  ∀ (opc : OpcodeMap) (s : State) (c : Cause), s.run = .stopped c → stepWith opc s = .fault (.stopped c)

/-- R127: every instruction tests its register fields in the order f1, f2, f3 before it changes anything, and reports the
first that is above 31. The cause and the order are the spec's decision D8 (log 6). -/
def Obligations.OffendingFieldStopsTheRun : Prop := ∀ i : Instr, ChecksOperands i

/-- R127, R96: an instruction all of whose register fields name registers never stops on one, whatever its immediates,
addresses and ignored fields (decision D8; log 6). -/
def Obligations.WellFormedNeverOffends : Prop :=
  ∀ (i : Instr) (s t : State), i.wellFormed = true → s.run = .running → exec i s = .next t →
    ∀ T k, t.run ≠ .stopped (.registerIndexOutOfRange T k)

/-- R132: every instruction in every state, and every step of a running core under every opcode map, answers a next state:
each stop of the hardware is one (R266), and nothing is refused. -/
def Obligations.EveryStepAnswersANextState : Prop :=
  (∀ (i : Instr) (s : State), ∃ t, exec i s = .next t) ∧
  ∀ (opc : OpcodeMap) (s : State), s.run = .running → ∃ t, stepWith opc s = .next t

/-- R130, R266: an instruction outside Branch/Jump that lets the run go on advances pc by exactly 1, unreduced; an
instruction of any category that stops the run leaves pc where it was. The category of call and ret and the unreduced pc
are the spec's decisions D5 and D7 (logs 9, 14). -/
def Obligations.PcAdvancesOutsideBranchJump : Prop :=
  ∀ (i : Instr) (s t : State), s.run = .running → exec i s = .next t →
    (t.run = .running → categoryOf i.mnemonic ≠ some .branchJump → t.pc = s.pc + 1) ∧
    (∀ c, t.run = .stopped c → t.pc = s.pc)

/-! Whole-machine rules -/

/-- R30: only store, push and call write the data store; an instruction other than these and load and pop neither changes
it nor depends on it. -/
def Obligations.DataStoreTouchedByFiveInstructions : Prop :=
  ∀ (i : Instr) (s t : State), exec i s = .next t →
    (i.mnemonic ∉ [Mnemonic.store, .push, .call] → DataKept s t) ∧
    (i.mnemonic ∉ [Mnemonic.load, .pop, .store, .push, .call] →
      ∀ m : Memory, exec i { s with dmem := m } = .next { t with dmem := m })

/-- R22, R23: the registers an instruction changes are among those in its "writes" column, x[31] included where it is
implicit. For cmp the column is open and x[f3] is R158's (decision D3; log 3). -/
def Obligations.OnlyNamedRegistersChange : Prop :=
  ∀ (i : Instr) (s t : State), exec i s = .next t → ∀ r : Reg, r.val ∉ writtenRegs i → t.reg r = s.reg r

/-- R23: what an instruction does depends on the registers in its "reads" column only. Two states that agree on those, and
on pc, BASE, run, the data store and CMP_FN, go to states that agree on pc, run and the data store, and, where the run
goes on, on the written registers; but cmp may write none (R158), and then both states keep x[f3]. For cmp the columns are
open and stand for the operands and destination of R158 (decision D3; log 3). -/
def Obligations.ResultDependsOnReadRegistersOnly : Prop :=
  ∀ (i : Instr) (s s' t t' : State), (∀ r : Reg, r.val ∈ readRegs i → s'.reg r = s.reg r) →
    s'.pc = s.pc → s'.base = s.base → s'.run = s.run → s'.dmem = s.dmem → s'.cmpFn = s.cmpFn → s.run = .running →
    exec i s = .next t → exec i s' = .next t' →
    t'.pc = t.pc ∧ t'.run = t.run ∧ t'.dmem = t.dmem ∧
    (t.run = .running → ∀ r : Reg, r.val ∈ writtenRegs i →
      t'.reg r = t.reg r ∨ (i.mnemonic = .cmp ∧ t.reg r = s.reg r ∧ t'.reg r = s'.reg r))

/-- R66, R29: no step changes the instruction store, so a store can never be seen by a later fetch; nor does any step
change BASE (R31) or MAX_STEPS (R7). That CMP_FN (R8) is a field of State that nothing changes is the model's choice
(log 3). -/
def Obligations.NoStepChangesTheInstructionStore : Prop :=
  ∀ (opc : OpcodeMap) (s t : State), stepWith opc s = .next t → LaunchKept s t

/-- R34, R121: each step begun is counted once, but for the attempt that a spent budget stops. -/
def Obligations.StepsCountTheStepsBegun : Prop :=
  ∀ (opc : OpcodeMap) (s t : State), stepWith opc s = .next t →
    (s.maxSteps ≠ some s.steps ∧ t.steps = s.steps + 1) ∨
    (s.maxSteps = some s.steps ∧ t.steps = s.steps ∧ t.run = .stopped (.stepBudget s.steps))

/-- R267: every stop but the data-address one leaves the registers, the data store and pc as they were before the step; so
does that one, but for x[31] where push or call raised it, of which nothing is said here (U3; log 8). -/
def Obligations.StopsArePrecise : Prop :=
  ∀ (opc : OpcodeMap) (s t : State) (c : Cause), stepWith opc s = .next t → t.run = .stopped c →
    t.pc = s.pc ∧ DataKept s t ∧
    (RegsKept s t [] ∨
      (RegsKept s t [sp] ∧ (∃ ea, c = .dataAddressOutOfRange ea) ∧
        ∃ i, decodeWith opc (s.instrWord s.pc) = .ok i ∧ (i.mnemonic = .push ∨ i.mnemonic = .call)))

/-- The invariant of the machine is kept by every step, from every state that has it: canonical stores, pc within 33 bits
(R26), the budget not overrun (R121), and a stop's info true of the state it leaves (R260, R266). -/
def Obligations.InvariantKeptByEveryStep : Prop :=
  ∀ (opc : OpcodeMap) (s t : State), s.Inv → stepWith opc s = .next t → t.Inv

/-- The state after reset has the invariant. -/
def Obligations.ResetHasTheInvariant : Prop := State.reset.Inv

/-- R290, R292 to R295: a machine booted from any image text the loader accepts has the invariant, runs, and starts at
BASE. -/
def Obligations.BootedMachineHasTheInvariant : Prop :=
  ∀ (ls : List Line) (n : Option Nat) (s : State), boot ls n = .ok s →
    s.Inv ∧ s.run = .running ∧ s.pc = s.base.val ∧ s.maxSteps = n

/-- R38, R290: reset leaves every register and every data cell 0, the image in the instruction store, pc = BASE, steps 0,
Running; `State.reset` is this for no image, BASE 0 and an unbounded budget (the model's choice, log 17), where every
instruction cell reads 0 (decision D10; log 4). -/
def Obligations.ResetState : Prop :=
  (∀ (p : Launch) (r : Reg) (a : Nat), (State.launch p).reg r = 0 ∧ (State.launch p).dataWord a = 0 ∧
    (State.launch p).imem = p.imem ∧ (State.launch p).base = p.base ∧ (State.launch p).pc = p.base.val ∧
    (State.launch p).steps = 0 ∧ (State.launch p).run = .running ∧ (State.launch p).maxSteps = p.maxSteps) ∧
  State.reset = State.launch { imem := [], base := 0, maxSteps := none, cmpFn := [] } ∧
  ∀ a, State.reset.instrWord a = 0

/-- R121: a run with budget n ends: within n - steps + 1 steps the core is stopped, with no more than n steps counted. The
order of the budget check is the spec's decision D12 (log 13). -/
def Obligations.EveryBudgetedRunStops : Prop :=
  ∀ (s : State) (n : Nat), s.run = .running → s.maxSteps = some n → s.steps ≤ n →
    ∃ (k : Nat) (t : State) (c : Cause), k ≤ n - s.steps + 1 ∧ Host.Core.run Sys2Proof.core k s = .next t ∧
      t.run = .stopped c ∧ t.steps ≤ n

/-- Two stores in canonical form that read alike at every address are the same data (log 4). -/
def Obligations.CanonicalStoresAreEqualData : Prop :=
  ∀ m n : Memory, m.wf = true → n.wf = true → (∀ a, m.read a = n.read a) → m = n

/-- R9, R20, R21: a register reads back the value written to it and every other register keeps its own, for all 32
registers, R0 among them; nothing else changes. -/
def Obligations.RegisterWriteIsReadBack : Prop :=
  ∀ (s : State) (i : Reg) (v : Word), (s.setReg i v).reg i = v ∧ RegsKept s (s.setReg i v) [i] ∧
    (s.setReg i v).pc = s.pc ∧ DataKept s (s.setReg i v) ∧ ControlKept s (s.setReg i v)

/-! Two-source ALU -/

/-- R151, R152, R156: add, sub and mult write the exact sum, difference and product of x[f1] and x[f2], reduced modulo
2^32, to x[f3]; pc <- T + 1; nothing else changes. -/
def Obligations.AddSubMultReduceModulo : Prop :=
  DecodesAs .add (fun f1 f2 f3 => .add f3 f1 f2) ∧ DecodesAs .sub (fun f1 f2 f3 => .sub f3 f1 f2) ∧
  DecodesAs .mult (fun f1 f2 f3 => .mult f3 f1 f2) ∧
  ∀ (c a b : Reg) (s : State),
    RegisterResult (exec (.add (regField c) (regField a) (regField b)) s) s c
      (fun v => v.toNat = ((s.reg a).toNat + (s.reg b).toNat) % 2 ^ 32) ∧
    RegisterResult (exec (.sub (regField c) (regField a) (regField b)) s) s c
      (fun v => (v.toNat : Int) = ((s.reg a).toNat - (s.reg b).toNat : Int) % 2 ^ 32) ∧
    RegisterResult (exec (.mult (regField c) (regField a) (regField b)) s) s c
      (fun v => v.toNat = ((s.reg a).toNat * (s.reg b).toNat) % 2 ^ 32)

/-- R153 to R155: xor, or and and combine the 32 bit positions of x[f1] and x[f2] into x[f3]. -/
def Obligations.BitwiseByPosition : Prop :=
  DecodesAs .xor (fun f1 f2 f3 => .xor f3 f1 f2) ∧ DecodesAs .or (fun f1 f2 f3 => .or f3 f1 f2) ∧
  DecodesAs .and (fun f1 f2 f3 => .and f3 f1 f2) ∧
  ∀ (c a b : Reg) (s : State),
    RegisterResult (exec (.xor (regField c) (regField a) (regField b)) s) s c
      (fun v => ∀ k, v.getLsbD k = ((s.reg a).getLsbD k ^^ (s.reg b).getLsbD k)) ∧
    RegisterResult (exec (.or (regField c) (regField a) (regField b)) s) s c
      (fun v => ∀ k, v.getLsbD k = ((s.reg a).getLsbD k || (s.reg b).getLsbD k)) ∧
    RegisterResult (exec (.and (regField c) (regField a) (regField b)) s) s c
      (fun v => ∀ k, v.getLsbD k = ((s.reg a).getLsbD k && (s.reg b).getLsbD k))

/-- R157: div writes 0 if the divisor is 0, else the q with q·b ≤ a < (q + 1)·b on the unsigned values; it never stops. -/
def Obligations.DivIsFloorOrZero : Prop :=
  DecodesAs .div (fun f1 f2 f3 => .div f3 f1 f2) ∧
  ∀ (c a b : Reg) (s : State),
    RegisterResult (exec (.div (regField c) (regField a) (regField b)) s) s c
      (fun v => if s.reg b = 0 then v = 0 else
        v.toNat * (s.reg b).toNat ≤ (s.reg a).toNat ∧ (s.reg a).toNat < (v.toNat + 1) * (s.reg b).toNat)

/-- R158, R265: where CMP_FN has a first row for the operands, cmp completes: it writes the row's value, or no register if
the row has none; where CMP_FN has no row for them, cmp stops with Refused(T, cmp) and nothing else changes. CMP_FN is the
spec's parameter (decision D3), held as a table in State (log 3); the operand check is decision D8 (log 6). -/
def Obligations.CmpFollowsItsParameter : Prop :=
  DecodesAs .cmp (fun f1 f2 f3 => .cmp f3 f1 f2) ∧
  (∀ rc ra rb, ChecksOperands (.cmp rc ra rb)) ∧
  ∀ (c a b : Reg) (s : State),
    (∀ (pre post : CmpFn) (v : Option Word), s.cmpFn = pre ++ ⟨s.reg a, s.reg b, v⟩ :: post →
      (∀ e ∈ pre, ¬ (e.a = s.reg a ∧ e.b = s.reg b)) →
      (∀ w, v = some w →
        RegisterResult (exec (.cmp (regField c) (regField a) (regField b)) s) s c (fun r => r = w)) ∧
      (v = none → JumpResult (exec (.cmp (regField c) (regField a) (regField b)) s) s (s.pc + 1))) ∧
    ((∀ e ∈ s.cmpFn, ¬ (e.a = s.reg a ∧ e.b = s.reg b)) →
      StopsAsIs (exec (.cmp (regField c) (regField a) (regField b)) s) s (.refused s.pc .cmp))

/-! One register, moves, constants -/

/-- R171 to R173: inc and dec add and subtract 1 modulo 2^32, zeros writes 0, each to x[f3]. -/
def Obligations.IncDecZeros : Prop :=
  DecodesAs .inc (fun _ _ f3 => .inc f3) ∧ DecodesAs .dec (fun _ _ f3 => .dec f3) ∧
  DecodesAs .zeros (fun _ _ f3 => .zeros f3) ∧
  ∀ (c : Reg) (s : State),
    RegisterResult (exec (.inc (regField c)) s) s c
      (fun v => v.toNat = if s.reg c = 0xFFFFFFFF then 0 else (s.reg c).toNat + 1) ∧
    RegisterResult (exec (.dec (regField c)) s) s c
      (fun v => v.toNat = if s.reg c = 0 then 0xFFFFFFFF else (s.reg c).toNat - 1) ∧
    RegisterResult (exec (.zeros (regField c)) s) s c (fun v => v = 0)

/-- R174, R175: passnota writes 0xFFFFFFFF - x[f1], passa copies x[f1], each to x[f3]. -/
def Obligations.ComplementAndCopy : Prop :=
  DecodesAs .passnota (fun f1 _ f3 => .passnota f3 f1) ∧ DecodesAs .passa (fun f1 _ f3 => .passa f3 f1) ∧
  ∀ (c a : Reg) (s : State),
    RegisterResult (exec (.passnota (regField c) (regField a)) s) s c
      (fun v => v.toNat = 0xFFFFFFFF - (s.reg a).toNat) ∧
    RegisterResult (exec (.passa (regField c) (regField a)) s) s c (fun v => v = s.reg a)

/-- R176, R177: lcl replaces the low half of x[f3] by imm16 and keeps the high half; lch the reverse; imm16 = f1 || f2. -/
def Obligations.ConstantHalves : Prop :=
  DecodesAs .lcl (fun f1 f2 f3 => .lcl f3 (f1 ++ f2)) ∧ DecodesAs .lch (fun f1 f2 f3 => .lch f3 (f1 ++ f2)) ∧
  ∀ (c : Reg) (imm : BitVec 16) (s : State),
    RegisterResult (exec (.lcl (regField c) imm) s) s c
      (fun v => v.extractLsb' 0 16 = imm ∧ v.extractLsb' 16 16 = (s.reg c).extractLsb' 16 16) ∧
    RegisterResult (exec (.lch (regField c) imm) s) s c
      (fun v => v.extractLsb' 16 16 = imm ∧ v.extractLsb' 0 16 = (s.reg c).extractLsb' 0 16)

/-- R177, R106: lcl then lch, in either order, builds the constant hi || lo whatever the register held. -/
def Obligations.HalvesBuildTheConstant : Prop :=
  ∀ (c : Reg) (hi lo : BitVec 16) (s : State),
    (∃ t u, exec (.lcl (regField c) lo) s = .next t ∧ exec (.lch (regField c) hi) t = .next u ∧ u.reg c = hi ++ lo) ∧
    (∃ t u, exec (.lch (regField c) hi) s = .next t ∧ exec (.lcl (regField c) lo) t = .next u ∧ u.reg c = hi ++ lo)

/-! Shifts -/

/-- R190 to R194: asl and lsl write 2·x[f1] modulo 2^32, asr and lsr the floor of x[f1]/2, whatever rb is, 0..255. The
format of asl and asr and the zero fill are the spec's decisions D4 and D13 (logs 10, 16). -/
def Obligations.ShiftsMoveOnePlace : Prop :=
  DecodesAs .asl (fun f1 f2 f3 => .asl f3 f1 f2) ∧ DecodesAs .asr (fun f1 f2 f3 => .asr f3 f1 f2) ∧
  DecodesAs .lsl (fun f1 f2 f3 => .lsl f3 f1 f2) ∧ DecodesAs .lsr (fun f1 f2 f3 => .lsr f3 f1 f2) ∧
  ∀ (c a : Reg) (rb : Field8) (s : State),
    RegisterResult (exec (.asl (regField c) (regField a) rb) s) s c (fun v => v.toNat = 2 * (s.reg a).toNat % 2 ^ 32) ∧
    RegisterResult (exec (.lsl (regField c) (regField a) rb) s) s c (fun v => v.toNat = 2 * (s.reg a).toNat % 2 ^ 32) ∧
    RegisterResult (exec (.asr (regField c) (regField a) rb) s) s c (fun v => v.toNat = (s.reg a).toNat / 2) ∧
    RegisterResult (exec (.lsr (regField c) (regField a) rb) s) s c (fun v => v.toNat = (s.reg a).toNat / 2)

/-! Load and store -/

/-- R221, R55, R56: with EA = BASE + x[f1] at most 32767, load copies that cell to x[f3]; above, it stops with
DataAddressOutOfRange(EA), the exact sum, and nothing changes. load's format is the spec's decision D4, the bounds on reads
D16 (logs 10, 15). -/
def Obligations.LoadReadsBasePlusRegister : Prop :=
  DecodesAs .load (fun f1 _ f3 => .load f3 f1) ∧ (∀ rc ra, ChecksOperands (.load rc ra)) ∧
  ∀ (c a : Reg) (s : State),
    (s.base.val + (s.reg a).toNat ≤ 32767 →
      RegisterResult (exec (.load (regField c) (regField a)) s) s c
        (fun v => v = s.dataWord (s.base.val + (s.reg a).toNat))) ∧
    (32767 < s.base.val + (s.reg a).toNat →
      StopsAsIs (exec (.load (regField c) (regField a)) s) s
        (.dataAddressOutOfRange (s.base.val + (s.reg a).toNat)))

/-- R222, R55, R56: with EA = BASE + x[f2] at most 32767, store writes x[f1] to that cell, changes no register and no
other cell, and advances pc; above, it stops with DataAddressOutOfRange(EA) and nothing changes. store's format is the
spec's decision D4 (log 10). -/
def Obligations.StoreWritesBasePlusRegister : Prop :=
  DecodesAs .store (fun f1 f2 _ => .store f1 f2) ∧ (∀ ra rb, ChecksOperands (.store ra rb)) ∧
  ∀ (a b : Reg) (s : State), s.dmem.wf = true →
    (basePlusReg s b ≤ 32767 →
      ∃ t, exec (.store (regField a) (regField b)) s = .next t ∧ t.dataWord (basePlusReg s b) = s.reg a ∧
        DataKeptBut (basePlusReg s b) s t ∧ t.pc = s.pc + 1 ∧ RegsKept s t [] ∧ ControlKept s t) ∧
    (32767 < basePlusReg s b →
      StopsAsIs (exec (.store (regField a) (regField b)) s) s (.dataAddressOutOfRange (basePlusReg s b))) ∧
    basePlusReg s b = s.base.val + (s.reg b).toNat

/-- R63 (b): a load from the address just stored to gives the stored word. -/
def Obligations.LoadSeesThePrecedingStore : Prop :=
  ∀ (a b c : Reg) (s : State), s.dmem.wf = true → basePlusReg s b ≤ 32767 →
    ∃ t u, exec (.store (regField a) (regField b)) s = .next t ∧ exec (.load (regField c) (regField b)) t = .next u ∧
      u.run = s.run ∧ u.reg c = s.reg a

/-! Stack and subroutine -/

/-- R200: with x[31] in 1..32768, push decrements x[31] and stores x[f1], read after the decrement, at the new x[31]
(BASE not added); otherwise it stops with DataAddressOutOfRange of the wrapped x[31] - 1, pc and the data store unchanged,
of x[31] nothing is said. The value push r31 stores and the order of the sub-steps are the spec's decision D9 (logs 7, 8). -/
def Obligations.PushStoresBelowTheStackTop : Prop :=
  DecodesAs .push (fun f1 _ _ => .push f1) ∧ (∀ ra, ChecksOperands (.push ra)) ∧
  ∀ (a : Reg) (s : State), s.dmem.wf = true →
    (1 ≤ (s.reg sp).toNat → (s.reg sp).toNat ≤ 32768 →
      ∃ t, exec (.push (regField a)) s = .next t ∧ t.reg sp = s.reg sp - 1 ∧
        t.dataWord ((s.reg sp).toNat - 1) = (if a = sp then s.reg sp - 1 else s.reg a) ∧
        DataKeptBut ((s.reg sp).toNat - 1) s t ∧ t.pc = s.pc + 1 ∧ RegsKept s t [sp] ∧ ControlKept s t) ∧
    ((s.reg sp = 0 ∨ 32768 < (s.reg sp).toNat) →
      ∃ t, exec (.push (regField a)) s = .next t ∧ t.run = .stopped (.dataAddressOutOfRange (s.reg sp - 1).toNat) ∧
        t.pc = s.pc ∧ DataKept s t ∧ RegsKept s t [sp] ∧ LaunchKept s t ∧ t.steps = s.steps)

/-- R201: with x[31] at most 32767, pop loads the word at x[31] into x[f2] and then increments x[31]; above, it stops with
DataAddressOutOfRange(x[31]) and nothing changes. That pop r31 leaves the loaded word plus 1 is the spec's decision D9
(log 7). -/
def Obligations.PopLoadsTheStackTop : Prop :=
  DecodesAs .pop (fun _ f2 _ => .pop f2) ∧ (∀ rc, ChecksOperands (.pop rc)) ∧
  ∀ (c : Reg) (s : State),
    ((s.reg sp).toNat ≤ 32767 →
      ∃ t, exec (.pop (regField c)) s = .next t ∧
        (c ≠ sp → t.reg c = s.dataWord (s.reg sp).toNat ∧ t.reg sp = s.reg sp + 1) ∧
        (c = sp → t.reg sp = s.dataWord (s.reg sp).toNat + 1) ∧
        t.pc = s.pc + 1 ∧ RegsKept s t [c, sp] ∧ DataKept s t ∧ ControlKept s t) ∧
    (32767 < (s.reg sp).toNat →
      StopsAsIs (exec (.pop (regField c)) s) s (.dataAddressOutOfRange (s.reg sp).toNat))

/-- R201 (f): push ra then pop rc, with a valid stack pointer, leaves x[rc] equal to x[ra] and x[31] restored, for ra and
rc other than r31. -/
def Obligations.PopUndoesPush : Prop :=
  ∀ (a c : Reg) (s : State), s.dmem.wf = true → a ≠ sp → c ≠ sp → 1 ≤ (s.reg sp).toNat → (s.reg sp).toNat ≤ 32768 →
    ∃ t u, exec (.push (regField a)) s = .next t ∧ exec (.pop (regField c)) t = .next u ∧ u.run = s.run ∧
      u.reg c = s.reg a ∧ u.reg sp = s.reg sp ∧ u.pc = s.pc + 2

/-- R202: with x[31] in 1..32768, call decrements x[31], stores T + 1 at the new x[31] and jumps to x[f1], read after the
decrement, with no BASE; otherwise it stops as push does, pc still T. The order of the sub-steps, call r31 and that no
increment follows are the spec's decisions D9 and D5 (logs 7, 8, 9). -/
def Obligations.CallPushesTheReturnAddress : Prop :=
  DecodesAs .call (fun f1 _ _ => .call f1) ∧ (∀ ra, ChecksOperands (.call ra)) ∧
  ∀ (a : Reg) (s : State), s.dmem.wf = true → s.pc ≤ 32767 →
    (1 ≤ (s.reg sp).toNat → (s.reg sp).toNat ≤ 32768 →
      ∃ t, exec (.call (regField a)) s = .next t ∧ t.reg sp = s.reg sp - 1 ∧
        (t.dataWord ((s.reg sp).toNat - 1)).toNat = s.pc + 1 ∧ DataKeptBut ((s.reg sp).toNat - 1) s t ∧
        t.pc = (if a = sp then s.reg sp - 1 else s.reg a).toNat ∧ RegsKept s t [sp] ∧ ControlKept s t) ∧
    ((s.reg sp = 0 ∨ 32768 < (s.reg sp).toNat) →
      ∃ t, exec (.call (regField a)) s = .next t ∧ t.run = .stopped (.dataAddressOutOfRange (s.reg sp - 1).toNat) ∧
        t.pc = s.pc ∧ DataKept s t ∧ RegsKept s t [sp] ∧ LaunchKept s t ∧ t.steps = s.steps)

/-- R203: ret sets pc to BASE + x[31], exactly, and changes nothing else; all three fields are ignored. That no increment
follows and that the sum is exact are the spec's decisions D5 and D7 (logs 9, 14). -/
def Obligations.RetJumpsToBasePlusR31 : Prop :=
  DecodesAs .ret (fun _ _ _ => .ret) ∧
  ∀ s : State, JumpResult (exec .ret s) s (s.base.val + (s.reg sp).toNat)

/-! Jumps and branches -/

/-- R230 to R232: j and jal go to BASE + addr24, jr to BASE + x[f1], all exact sums; jal first writes T + 1 to x[31];
nothing else changes. In a step T is at most 32767 (R122). That the sums are exact is the spec's decision D7 (log 14). -/
def Obligations.JumpsAddBase : Prop :=
  DecodesAs .j (fun f1 f2 f3 => .j (f1 ++ f2 ++ f3)) ∧ DecodesAs .jal (fun f1 f2 f3 => .jal (f1 ++ f2 ++ f3)) ∧
  DecodesAs .jr (fun f1 _ _ => .jr f1) ∧ (∀ ra, ChecksOperands (.jr ra)) ∧
  ∀ (addr : BitVec 24) (a : Reg) (s : State),
    JumpResult (exec (.j addr) s) s (s.base.val + addr.toNat) ∧
    JumpResult (exec (.jr (regField a)) s) s (s.base.val + (s.reg a).toNat) ∧
    (s.pc ≤ 32767 → ∃ t, exec (.jal addr) s = .next t ∧ (t.reg sp).toNat = s.pc + 1 ∧
      t.pc = s.base.val + addr.toNat ∧ RegsKept s t [sp] ∧ DataKept s t ∧ ControlKept s t)

/-- R233, R234: beq goes to BASE + addr8 if x[f1] = x[f2], else to T + 1; bne the reverse; nothing else changes. The check
of the two register fields is the spec's decision D8 (log 6). -/
def Obligations.BranchesCompareTwoRegisters : Prop :=
  DecodesAs .beq (fun f1 f2 f3 => .beq f1 f2 f3) ∧ DecodesAs .bne (fun f1 f2 f3 => .bne f1 f2 f3) ∧
  (∀ ra rb addr8, ChecksOperands (.beq ra rb addr8) ∧ ChecksOperands (.bne ra rb addr8)) ∧
  ∀ (a b : Reg) (addr8 : Field8) (s : State),
    JumpResult (exec (.beq (regField a) (regField b) addr8) s) s
      (if s.reg a = s.reg b then s.base.val + addr8.toNat else s.pc + 1) ∧
    JumpResult (exec (.bne (regField a) (regField b) addr8) s) s
      (if s.reg a = s.reg b then s.pc + 1 else s.base.val + addr8.toNat)

/-- R203 (a): ret is jr r31 in effect, and so it is jr of any register that holds what x[31] holds. -/
def Obligations.RetIsJrR31 : Prop :=
  ∀ (a : Reg) (s : State), s.reg a = s.reg sp → exec (.jr (regField a)) s = exec .ret s

/-! Loader and host -/

/-- R294, R295: an image of at most 32768 binary lines and no directive is loaded from address 0 on, every other cell is
0, and BASE is 0. That unloaded cells are 0 is the spec's decision D10 (log 4). -/
def Obligations.ImageWithoutDirectiveLoadsAtZero : Prop :=
  ∀ ws : List Word, ws.length ≤ 32768 →
    ∃ img, loadImage (ws.map binaryText) = .ok img ∧ img.base = 0 ∧ ∀ a, img.imem.read a = ws.getD a 0

/-- R301: after a stop the host observes the cause, pc, steps, the registers and the data store; during a run nothing. -/
def Obligations.HostObservesAfterAStop : Prop :=
  ∀ s : State, (s.run = .running → s.observe = none) ∧
    ∀ c, s.run = .stopped c → ∃ o, s.observe = some o ∧ o.cause = c ∧ o.pc = s.pc ∧ o.steps = s.steps ∧
      (∀ r : Reg, o.x.get r = s.reg r) ∧ ∀ a, o.dmem.read a = s.dataWord a

/-- R38, R293 to R295: an image of binary lines and then any number of directives, each with the binary lines after it,
boots to a core that starts at BASE, the first directive's operand (0 if there is none); every line lands from its
directive's operand on, or from 0 before the first directive; the last line for an address counts; every other cell is 0.
Where two lines for one address are concerned the spec reads R293 and R294 (R297; log 20); that unloaded cells are 0 is
decision D10 (log 4); the forms of the gap before the operand are the model's reading of R293 (log 20). -/
def Obligations.ImageDirectivesPlaceTheirLines : Prop :=
  ∀ (ws : List Word) (bs : List ImageBlock) (n : Option Nat), ws.length ≤ 32768 → (∀ b ∈ bs, b.Proper) →
    ∃ s, boot (ws.map binaryText ++ bs.flatMap ImageBlock.lines) n = .ok s ∧
      s.base.val = (bs.head?.map ImageBlock.start).getD 0 ∧ s.pc = s.base.val ∧
      ∀ a, s.instrWord a = blocksWord bs a (ws.getD a 0)
end

