-- ==== Sys2Proof/Laws/Decode.lean ====
section
/-! SUPPORT. The fields of a packed word, and what an admissible opcode map resolves. -/

namespace Sys2Proof

@[simp] theorem opcodeField_packWord (op f1 f2 f3 : Field8) : opcodeField (packWord op f1 f2 f3) = op := by
  apply BitVec.eq_of_toNat_eq
  have := op.isLt; have := f1.isLt; have := f2.isLt; have := f3.isLt
  simp only [opcodeField, packWord, BitVec.extractLsb'_toNat, BitVec.toNat_append, Nat.shiftRight_eq_div_pow]
  rw [← Nat.shiftLeft_add_eq_or_of_lt f3.isLt, ← Nat.shiftLeft_add_eq_or_of_lt f2.isLt,
    ← Nat.shiftLeft_add_eq_or_of_lt f1.isLt]
  simp only [Nat.shiftLeft_eq]; omega

@[simp] theorem field1_packWord (op f1 f2 f3 : Field8) : field1 (packWord op f1 f2 f3) = f1 := by
  apply BitVec.eq_of_toNat_eq
  have := op.isLt; have := f1.isLt; have := f2.isLt; have := f3.isLt
  simp only [field1, packWord, BitVec.extractLsb'_toNat, BitVec.toNat_append, Nat.shiftRight_eq_div_pow]
  rw [← Nat.shiftLeft_add_eq_or_of_lt f3.isLt, ← Nat.shiftLeft_add_eq_or_of_lt f2.isLt,
    ← Nat.shiftLeft_add_eq_or_of_lt f1.isLt]
  simp only [Nat.shiftLeft_eq]; omega

@[simp] theorem field2_packWord (op f1 f2 f3 : Field8) : field2 (packWord op f1 f2 f3) = f2 := by
  apply BitVec.eq_of_toNat_eq
  have := op.isLt; have := f1.isLt; have := f2.isLt; have := f3.isLt
  simp only [field2, packWord, BitVec.extractLsb'_toNat, BitVec.toNat_append, Nat.shiftRight_eq_div_pow]
  rw [← Nat.shiftLeft_add_eq_or_of_lt f3.isLt, ← Nat.shiftLeft_add_eq_or_of_lt f2.isLt,
    ← Nat.shiftLeft_add_eq_or_of_lt f1.isLt]
  simp only [Nat.shiftLeft_eq]; omega

@[simp] theorem field3_packWord (op f1 f2 f3 : Field8) : field3 (packWord op f1 f2 f3) = f3 := by
  apply BitVec.eq_of_toNat_eq
  have := op.isLt; have := f1.isLt; have := f2.isLt; have := f3.isLt
  simp only [field3, packWord, BitVec.extractLsb'_toNat, BitVec.toNat_append, Nat.shiftRight_eq_div_pow]
  rw [← Nat.shiftLeft_add_eq_or_of_lt f3.isLt, ← Nat.shiftLeft_add_eq_or_of_lt f2.isLt,
    ← Nat.shiftLeft_add_eq_or_of_lt f1.isLt]
  simp only [Nat.shiftLeft_eq]; omega

/-- A word with a 16-bit immediate in w[23:8], as four bytes (R86). -/
theorem append_imm16 (op : Field8) (imm16 : BitVec 16) (rc : Field8) :
    (op ++ imm16 ++ rc : Word) = packWord op (imm16.extractLsb' 8 8) (imm16.extractLsb' 0 8) rc := by
  apply BitVec.eq_of_getLsbD_eq
  intro k hk
  simp only [packWord, BitVec.getLsbD_append, BitVec.getLsbD_extractLsb']
  by_cases h : k < 8
  · simp [h]
  · by_cases h' : k - 8 < 8
    · simp [h, h', show k - 8 < 16 by omega]
    · by_cases h'' : k - 8 - 8 < 8
      · simp [h, h', h'', show k - 8 < 16 by omega, show 8 + (k - 8 - 8) = k - 8 by omega]
      · simp [h, h', h'', show ¬ k - 8 < 16 by omega, show k - 8 - 8 - 8 = k - 8 - 16 by omega]

/-- A word with a 24-bit address in w[23:0], as four bytes (R84). -/
theorem append_addr24 (op : Field8) (addr : BitVec 24) :
    (op ++ addr : Word) = packWord op (addr.extractLsb' 16 8) (addr.extractLsb' 8 8) (addr.extractLsb' 0 8) := by
  apply BitVec.eq_of_getLsbD_eq
  intro k hk
  simp only [packWord, BitVec.getLsbD_append, BitVec.getLsbD_extractLsb']
  by_cases h : k < 8
  · simp [h, show k < 24 by omega]
  · by_cases h' : k - 8 < 8
    · simp [h, h', show k < 24 by omega, show 8 + (k - 8) = k by omega]
    · by_cases h'' : k - 8 - 8 < 8
      · simp [h, h', h'', show k < 24 by omega, show 16 + (k - 8 - 8) = k by omega]
      · simp [h, h', h'', show ¬ k < 24 by omega, show k - 8 - 8 - 8 = k - 24 by omega]

/-- imm16 is f1 || f2 (R86). -/
theorem imm16Of_eq (w : Word) : imm16Of w = field1 w ++ field2 w := by
  apply BitVec.eq_of_getLsbD_eq
  intro k hk
  simp only [imm16Of, field1, field2, BitVec.getLsbD_append, BitVec.getLsbD_extractLsb']
  by_cases h : k < 8
  · simp [h, hk]
  · simp [h, hk, show k - 8 < 8 by omega, show 16 + (k - 8) = 8 + k by omega]

/-- addr24 is f1 || f2 || f3 (R84). -/
theorem addr24Of_eq (w : Word) : addr24Of w = field1 w ++ field2 w ++ field3 w := by
  apply BitVec.eq_of_getLsbD_eq
  intro k hk
  simp only [addr24Of, field1, field2, field3, BitVec.getLsbD_append, BitVec.getLsbD_extractLsb']
  by_cases h : k < 8
  · simp [h, hk]
  · by_cases h' : k - 8 < 8
    · simp [h, h', hk, show 8 + (k - 8) = k by omega]
    · simp [h, h', hk, show k - 8 - 8 < 8 by omega, show 16 + (k - 8 - 8) = k by omega]

/-- addr8 is f3 (R85). -/
theorem addr8Of_eq (w : Word) : addr8Of w = field3 w := rfl

theorem Mnemonic.mem_all (m : Mnemonic) : m ∈ Mnemonic.all := by cases m <;> decide

/-- An admissible map resolves an opcode to the one mnemonic that has it (R90, R92). -/
theorem resolveOpcode_some {opc : OpcodeMap} (h : opc.Admissible) {op : Field8} {m : Mnemonic} :
    resolveOpcode opc op = some m ↔ opc m = op := by
  constructor
  · intro hr
    simpa using List.find?_some hr
  · intro hm
    cases hr : resolveOpcode opc op with
    | none => exact absurd hm (by simpa using List.find?_eq_none.mp hr m (Mnemonic.mem_all m))
    | some n =>
      have hn : opc n = op := by simpa using List.find?_some hr
      rw [h.1 n m (hn.trans hm.symm)]

/-- An opcode resolves to nothing exactly when no mnemonic has it (R94). -/
theorem resolveOpcode_none {opc : OpcodeMap} {op : Field8} :
    resolveOpcode opc op = none ↔ ∀ m, opc m ≠ op := by
  simp only [resolveOpcode, List.find?_eq_none, beq_iff_eq]
  exact ⟨fun h m => h m (Mnemonic.mem_all m), fun h m _ => h m⟩

/-- Decoding under an admissible map: the opcode field selects, the other fields give the operands. -/
theorem decodeWith_of_opcode {opc : OpcodeMap} (h : opc.Admissible) {w : Word} {m : Mnemonic}
    (hw : opcodeField w = opc m) : decodeWith opc w = .ok (instrOf m w) := by
  have := (resolveOpcode_some h (op := opcodeField w) (m := m)).mpr hw.symm
  simp [decodeWith, this]

theorem instrOf_mnemonic (m : Mnemonic) (w : Word) : (instrOf m w).mnemonic = m := by cases m <;> rfl

end Sys2Proof
end

