-- ==== Sys2Proof/Laws/Memory.lean ====
section
/-! SUPPORT. The store: a write is read back, leaves every other word, and keeps the canonical form. -/

namespace Sys2Proof.Machine

theorem Memory.wfFrom_cons {lo k : Nat} {w : Word} {m : Memory} :
    Memory.wfFrom lo ((k, w) :: m) = true ↔
      lo ≤ k ∧ k < storeWords ∧ w ≠ unlistedWord ∧ Memory.wfFrom (k + 1) m = true := by
  simp [Memory.wfFrom, and_assoc]

theorem Memory.wfFrom_mono {lo lo' : Nat} (h : lo ≤ lo') : ∀ {m : Memory}, m.wfFrom lo' = true → m.wfFrom lo = true
  | [], _ => rfl
  | (_, _) :: _, hm => by
    obtain ⟨h1, h2⟩ := Memory.wfFrom_cons.mp hm
    exact Memory.wfFrom_cons.mpr ⟨by omega, h2⟩

/-- Below its first possible address a canonical store reads as unlisted. -/
theorem Memory.read_below {lo a : Nat} (h : a < lo) : ∀ {m : Memory}, m.wfFrom lo = true → m.read a = unlistedWord
  | [], _ => rfl
  | (k, _) :: m, hm => by
    obtain ⟨h1, -, -, h4⟩ := Memory.wfFrom_cons.mp hm
    have hk : a ≠ k := by omega
    simpa [Memory.read, hk] using Memory.read_below (m := m) (lo := k + 1) (by omega) h4

theorem Memory.read_put {a b : Nat} {v : Word} {m : Memory} (hm : m.wfFrom (a + 1) = true) :
    (Memory.put a v m).read b = if b = a then v else m.read b := by
  unfold Memory.put
  split
  · next hv =>
    split
    · next hb => subst hb; rw [hv]; exact Memory.read_below (Nat.lt_succ_self b) hm
    · rfl
  · rfl

theorem Memory.put_wf {lo a : Nat} {v : Word} {m : Memory} (hlo : lo ≤ a) (ha : a < storeWords)
    (hm : m.wfFrom (a + 1) = true) : (Memory.put a v m).wfFrom lo = true := by
  unfold Memory.put
  split
  · exact Memory.wfFrom_mono (by omega) hm
  · next hv => exact Memory.wfFrom_cons.mpr ⟨hlo, ha, hv, hm⟩

theorem Memory.read_write_from {a b : Nat} {v : Word} : ∀ {lo : Nat} {m : Memory}, m.wfFrom lo = true →
    (m.write a v).read b = if b = a then v else m.read b
  | _, [], _ => Memory.read_put rfl
  | _, (k, w) :: m, hm => by
    obtain ⟨h1, h2, h3, h4⟩ := Memory.wfFrom_cons.mp hm
    unfold Memory.write
    split
    · next hak => exact Memory.read_put (Memory.wfFrom_cons.mpr ⟨hak, h2, h3, h4⟩)
    · next hak =>
      split
      · next hk =>
        subst hk
        rw [Memory.read_put h4]
        by_cases hb : b = a <;> simp [Memory.read, hb]
      · next hk =>
        have ih := Memory.read_write_from (a := a) (b := b) (v := v) h4
        by_cases hb : b = k
        · have hba : b ≠ a := by omega
          simp [Memory.read, hb, show k ≠ a by omega]
        · simp [Memory.read, hb, ih]

theorem Memory.write_wf_from {a : Nat} {v : Word} (ha : a < storeWords) : ∀ {lo : Nat} {m : Memory}, lo ≤ a →
    m.wfFrom lo = true → (m.write a v).wfFrom lo = true
  | _, [], hlo, _ => Memory.put_wf hlo ha rfl
  | _, (k, w) :: m, hlo, hm => by
    obtain ⟨h1, h2, h3, h4⟩ := Memory.wfFrom_cons.mp hm
    unfold Memory.write
    split
    · next hak => exact Memory.put_wf hlo ha (Memory.wfFrom_cons.mpr ⟨hak, h2, h3, h4⟩)
    · next hak =>
      split
      · next hk => subst hk; exact Memory.put_wf hlo ha h4
      · next hk =>
        exact Memory.wfFrom_cons.mpr ⟨h1, h2, h3, Memory.write_wf_from ha (by omega) h4⟩

/-- A write is read back, and every other address reads as before (20_memory R63). -/
theorem Memory.read_write {m : Memory} (hm : m.wf = true) (a b : Nat) (v : Word) :
    (m.write a v).read b = if b = a then v else m.read b := Memory.read_write_from hm

/-- A write within the store keeps the canonical form. -/
theorem Memory.write_wf {m : Memory} (hm : m.wf = true) {a : Nat} (ha : a < storeWords) (v : Word) :
    (m.write a v).wf = true := Memory.write_wf_from ha (Nat.zero_le a) hm

/-- The empty store is canonical. -/
theorem Memory.wf_empty : Memory.wf [] = true := rfl

end Sys2Proof.Machine
end

