-- ==== Sys2Proof/Laws/State.lean ====
section
/-! SUPPORT. What each update of State does to each field: one lemma per field per update, so that no later proof unfolds
a record update. -/

namespace Sys2Proof.Machine

section setRegFields
variable (s : State) (i : Reg) (v : Word)

@[simp] theorem State.setReg_pc : (s.setReg i v).pc = s.pc := rfl
@[simp] theorem State.setReg_imem : (s.setReg i v).imem = s.imem := rfl
@[simp] theorem State.setReg_dmem : (s.setReg i v).dmem = s.dmem := rfl
@[simp] theorem State.setReg_base : (s.setReg i v).base = s.base := rfl
@[simp] theorem State.setReg_run : (s.setReg i v).run = s.run := rfl
@[simp] theorem State.setReg_steps : (s.setReg i v).steps = s.steps := rfl
@[simp] theorem State.setReg_maxSteps : (s.setReg i v).maxSteps = s.maxSteps := rfl
@[simp] theorem State.setReg_cmpFn : (s.setReg i v).cmpFn = s.cmpFn := rfl
@[simp] theorem State.setReg_dataWord (a : Nat) : (s.setReg i v).dataWord a = s.dataWord a := rfl
@[simp] theorem State.setReg_instrWord (a : Nat) : (s.setReg i v).instrWord a = s.instrWord a := rfl

end setRegFields

section setPcFields
variable (s : State) (p : Nat)

@[simp] theorem State.setPc_pc : (s.setPc p).pc = p := rfl
@[simp] theorem State.setPc_imem : (s.setPc p).imem = s.imem := rfl
@[simp] theorem State.setPc_dmem : (s.setPc p).dmem = s.dmem := rfl
@[simp] theorem State.setPc_base : (s.setPc p).base = s.base := rfl
@[simp] theorem State.setPc_run : (s.setPc p).run = s.run := rfl
@[simp] theorem State.setPc_steps : (s.setPc p).steps = s.steps := rfl
@[simp] theorem State.setPc_maxSteps : (s.setPc p).maxSteps = s.maxSteps := rfl
@[simp] theorem State.setPc_cmpFn : (s.setPc p).cmpFn = s.cmpFn := rfl
@[simp] theorem State.setPc_reg (q : Reg) : (s.setPc p).reg q = s.reg q := rfl
@[simp] theorem State.setPc_dataWord (a : Nat) : (s.setPc p).dataWord a = s.dataWord a := rfl
@[simp] theorem State.setPc_instrWord (a : Nat) : (s.setPc p).instrWord a = s.instrWord a := rfl

end setPcFields

section advanceFields
variable (s : State)

@[simp] theorem State.advance_pc : (s.advance).pc = s.pc + 1 := rfl
@[simp] theorem State.advance_imem : (s.advance).imem = s.imem := rfl
@[simp] theorem State.advance_dmem : (s.advance).dmem = s.dmem := rfl
@[simp] theorem State.advance_base : (s.advance).base = s.base := rfl
@[simp] theorem State.advance_run : (s.advance).run = s.run := rfl
@[simp] theorem State.advance_steps : (s.advance).steps = s.steps := rfl
@[simp] theorem State.advance_maxSteps : (s.advance).maxSteps = s.maxSteps := rfl
@[simp] theorem State.advance_cmpFn : (s.advance).cmpFn = s.cmpFn := rfl
@[simp] theorem State.advance_reg (q : Reg) : (s.advance).reg q = s.reg q := rfl
@[simp] theorem State.advance_dataWord (a : Nat) : (s.advance).dataWord a = s.dataWord a := rfl
@[simp] theorem State.advance_instrWord (a : Nat) : (s.advance).instrWord a = s.instrWord a := rfl

end advanceFields

section setDmemFields
variable (s : State) (m : Memory)

@[simp] theorem State.setDmem_pc : (s.setDmem m).pc = s.pc := rfl
@[simp] theorem State.setDmem_imem : (s.setDmem m).imem = s.imem := rfl
@[simp] theorem State.setDmem_dmem : (s.setDmem m).dmem = m := rfl
@[simp] theorem State.setDmem_base : (s.setDmem m).base = s.base := rfl
@[simp] theorem State.setDmem_run : (s.setDmem m).run = s.run := rfl
@[simp] theorem State.setDmem_steps : (s.setDmem m).steps = s.steps := rfl
@[simp] theorem State.setDmem_maxSteps : (s.setDmem m).maxSteps = s.maxSteps := rfl
@[simp] theorem State.setDmem_cmpFn : (s.setDmem m).cmpFn = s.cmpFn := rfl
@[simp] theorem State.setDmem_reg (q : Reg) : (s.setDmem m).reg q = s.reg q := rfl
@[simp] theorem State.setDmem_dataWord (a : Nat) : (s.setDmem m).dataWord a = m.read a := rfl
@[simp] theorem State.setDmem_instrWord (a : Nat) : (s.setDmem m).instrWord a = s.instrWord a := rfl

end setDmemFields

section setRunFields
variable (s : State) (r : RunState)

@[simp] theorem State.setRun_pc : (s.setRun r).pc = s.pc := rfl
@[simp] theorem State.setRun_imem : (s.setRun r).imem = s.imem := rfl
@[simp] theorem State.setRun_dmem : (s.setRun r).dmem = s.dmem := rfl
@[simp] theorem State.setRun_base : (s.setRun r).base = s.base := rfl
@[simp] theorem State.setRun_run : (s.setRun r).run = r := rfl
@[simp] theorem State.setRun_steps : (s.setRun r).steps = s.steps := rfl
@[simp] theorem State.setRun_maxSteps : (s.setRun r).maxSteps = s.maxSteps := rfl
@[simp] theorem State.setRun_cmpFn : (s.setRun r).cmpFn = s.cmpFn := rfl
@[simp] theorem State.setRun_reg (q : Reg) : (s.setRun r).reg q = s.reg q := rfl
@[simp] theorem State.setRun_dataWord (a : Nat) : (s.setRun r).dataWord a = s.dataWord a := rfl
@[simp] theorem State.setRun_instrWord (a : Nat) : (s.setRun r).instrWord a = s.instrWord a := rfl

end setRunFields

section setStepsFields
variable (s : State) (n : Nat)

@[simp] theorem State.setSteps_pc : (s.setSteps n).pc = s.pc := rfl
@[simp] theorem State.setSteps_imem : (s.setSteps n).imem = s.imem := rfl
@[simp] theorem State.setSteps_dmem : (s.setSteps n).dmem = s.dmem := rfl
@[simp] theorem State.setSteps_base : (s.setSteps n).base = s.base := rfl
@[simp] theorem State.setSteps_run : (s.setSteps n).run = s.run := rfl
@[simp] theorem State.setSteps_steps : (s.setSteps n).steps = n := rfl
@[simp] theorem State.setSteps_maxSteps : (s.setSteps n).maxSteps = s.maxSteps := rfl
@[simp] theorem State.setSteps_cmpFn : (s.setSteps n).cmpFn = s.cmpFn := rfl
@[simp] theorem State.setSteps_reg (q : Reg) : (s.setSteps n).reg q = s.reg q := rfl
@[simp] theorem State.setSteps_dataWord (a : Nat) : (s.setSteps n).dataWord a = s.dataWord a := rfl
@[simp] theorem State.setSteps_instrWord (a : Nat) : (s.setSteps n).instrWord a = s.instrWord a := rfl

end setStepsFields

section stopFields
variable (s : State) (c : Cause)

@[simp] theorem State.stop_pc : (s.stop c).pc = s.pc := rfl
@[simp] theorem State.stop_imem : (s.stop c).imem = s.imem := rfl
@[simp] theorem State.stop_dmem : (s.stop c).dmem = s.dmem := rfl
@[simp] theorem State.stop_base : (s.stop c).base = s.base := rfl
@[simp] theorem State.stop_run : (s.stop c).run = .stopped c := rfl
@[simp] theorem State.stop_steps : (s.stop c).steps = s.steps := rfl
@[simp] theorem State.stop_maxSteps : (s.stop c).maxSteps = s.maxSteps := rfl
@[simp] theorem State.stop_cmpFn : (s.stop c).cmpFn = s.cmpFn := rfl
@[simp] theorem State.stop_reg (q : Reg) : (s.stop c).reg q = s.reg q := rfl
@[simp] theorem State.stop_dataWord (a : Nat) : (s.stop c).dataWord a = s.dataWord a := rfl
@[simp] theorem State.stop_instrWord (a : Nat) : (s.stop c).instrWord a = s.instrWord a := rfl

end stopFields

/-- A register reads back what was written to it; no register is hardwired (R21). -/
@[simp] theorem State.setReg_reg_same (s : State) (i : Reg) (v : Word) : (s.setReg i v).reg i = v := by
  simp [State.setReg, State.reg, Vector.get_eq_getElem]

/-- Writing a register leaves every other register. -/
theorem State.setReg_reg_ne (s : State) {i j : Reg} (v : Word) (h : j ≠ i) : (s.setReg i v).reg j = s.reg j := by
  have hv : i.val ≠ j.val := fun e => h (Fin.ext e.symm)
  simp [State.setReg, State.reg, Vector.get_eq_getElem, Vector.getElem_set_ne, hv]

theorem State.setReg_reg (s : State) (i j : Reg) (v : Word) :
    (s.setReg i v).reg j = if j = i then v else s.reg j := by
  split
  · next h => subst h; exact State.setReg_reg_same s j v
  · next h => exact State.setReg_reg_ne s v h

/-- The register read of a field-wise replaced state, for states written with record updates. -/
@[simp] theorem State.reg_mk (x : Vector Word 32) (p im dm b r n ms cf) (i : Reg) :
    (State.mk x p im dm b r n ms cf).reg i = x.get i := rfl

end Sys2Proof.Machine
end

