-- ==== Sys2Proof/Laws/Ops.lean ====
section
/-! SUPPORT. For each shared operation, everything it can do: an equation under each condition, and an inversion lemma
for when it answers a next state. -/

namespace Sys2Proof.Machine

theorem regField_toNat (r : Reg) : (regField r).toNat = r.val := by
  have := r.isLt
  simp [regField, BitVec.toNat_ofNat]; omega

/-- The fields that name registers are those of the 32 registers. -/
theorem exists_regField {f : Field8} (h : f.toNat < 32) : ∃ r : Reg, f = regField r :=
  ⟨⟨f.toNat, h⟩, by apply BitVec.eq_of_toNat_eq; rw [regField_toNat]⟩

theorem withReg_regField (r : Reg) (s : State) (k : Reg → Out) : withReg (regField r) s k = k r := by
  have h : (regField r).toNat < 32 := by rw [regField_toNat]; exact r.isLt
  have e : (⟨(regField r).toNat, h⟩ : Reg) = r := Fin.ext (regField_toNat r)
  simp only [withReg, dif_pos h, e]

theorem withReg_out {f : Field8} {s : State} {k : Reg → Out} (h : ¬ f.toNat < 32) :
    withReg f s k = raise s (.registerIndexOutOfRange s.pc f.toNat) := dif_neg h

/-- A register operand: its register passed on, or the stop of R127. -/
theorem withReg_cases (f : Field8) (s : State) (k : Reg → Out) :
    (∃ r : Reg, f = regField r ∧ withReg f s k = k r) ∨
    (32 ≤ f.toNat ∧ withReg f s k = raise s (.registerIndexOutOfRange s.pc f.toNat)) := by
  by_cases h : f.toNat < 32
  · obtain ⟨r, rfl⟩ := exists_regField h
    exact .inl ⟨r, rfl, withReg_regField r s k⟩
  · exact .inr ⟨by omega, withReg_out h⟩

theorem inStore_iff {a : Nat} : inStore a = true ↔ a < storeWords := by simp [inStore]

theorem memRead_in {a : Nat} {s : State} {k : Word → Out} (h : a < storeWords) : memRead a s k = k (s.dataWord a) :=
  if_pos (inStore_iff.mpr h)

theorem memRead_out {a : Nat} {s : State} {k : Word → Out} (h : storeWords ≤ a) :
    memRead a s k = raise s (.dataAddressOutOfRange a) := if_neg (by rw [inStore_iff]; omega)

theorem memWrite_in {a : Nat} {v : Word} {s : State} {k : State → Out} (h : a < storeWords) :
    memWrite a v s k = k (s.setDmem (s.dmem.write a v)) := if_pos (inStore_iff.mpr h)

theorem memWrite_out {a : Nat} {v : Word} {s : State} {k : State → Out} (h : storeWords ≤ a) :
    memWrite a v s k = raise s (.dataAddressOutOfRange a) := if_neg (by rw [inStore_iff]; omega)

theorem raise_next {s t : State} {c : Cause} : raise s c = .next t ↔ t = s.stop c := by
  simp [raise, eq_comm]

theorem writeBack_next {s t : State} {c : Reg} {v : Word} :
    writeBack c v s = .next t ↔ t = (s.setReg c v).advance := by
  simp [writeBack, eq_comm]

/-- A register operand whose meaning answers a next state. -/
theorem withReg_next {f : Field8} {s t : State} {k : Reg → Out} (h : withReg f s k = .next t) :
    (∃ r : Reg, f = regField r ∧ k r = .next t) ∨
    (32 ≤ f.toNat ∧ t = s.stop (.registerIndexOutOfRange s.pc f.toNat)) := by
  obtain ⟨r, hf, hk⟩ | ⟨hf, hk⟩ := withReg_cases f s k
  · exact .inl ⟨r, hf, hk ▸ h⟩
  · exact .inr ⟨hf, raise_next.mp (hk ▸ h)⟩

/-- A data read that answers a next state. -/
theorem memRead_next {a : Nat} {s t : State} {k : Word → Out} (h : memRead a s k = .next t) :
    (a < storeWords ∧ k (s.dataWord a) = .next t) ∨ (storeWords ≤ a ∧ t = s.stop (.dataAddressOutOfRange a)) := by
  by_cases ha : a < storeWords
  · exact .inl ⟨ha, by rwa [memRead_in ha] at h⟩
  · exact .inr ⟨by omega, raise_next.mp (by rwa [memRead_out (Nat.le_of_not_lt ha)] at h)⟩

/-- A data write that answers a next state. -/
theorem memWrite_next {a : Nat} {v : Word} {s t : State} {k : State → Out} (h : memWrite a v s k = .next t) :
    (a < storeWords ∧ k (s.setDmem (s.dmem.write a v)) = .next t) ∨
    (storeWords ≤ a ∧ t = s.stop (.dataAddressOutOfRange a)) := by
  by_cases ha : a < storeWords
  · exact .inl ⟨ha, by rwa [memWrite_in ha] at h⟩
  · exact .inr ⟨by omega, raise_next.mp (by rwa [memWrite_out (Nat.le_of_not_lt ha)] at h)⟩

/-- u32 of a natural number is reduction modulo 2^32. -/
theorem u32_natCast_toNat (n : Nat) : (u32 (n : Int)).toNat = n % 2 ^ 32 := by
  simp [u32]

/-- The value of u32 is the exact integer modulo 2^32. -/
theorem u32_toNat (n : Int) : ((u32 n).toNat : Int) = n % 2 ^ 32 := by
  simp only [u32, BitVec.toNat_ofInt]
  have : (0 : Int) ≤ n % 2 ^ 32 := Int.emod_nonneg n (by norm_num)
  simpa using this

/-- A step that answers a next state: a stop of one of the common stages, or the meaning of the decoded instruction. -/
theorem cycle_next {opc : OpcodeMap} {f : Instr → State → Out} {s t : State} (h : cycle opc f s = .next t) :
    s.run = .running ∧
    ((s.maxSteps = some s.steps ∧ t = s.stop (.stepBudget s.steps)) ∨
     (s.maxSteps ≠ some s.steps ∧ storeWords ≤ s.pc ∧ t = (s.setSteps (s.steps + 1)).stop (.pcOutOfRange s.pc)) ∨
     (s.maxSteps ≠ some s.steps ∧ s.pc < storeWords ∧ decodeWith opc (s.instrWord s.pc) = .error (.invalidOpcode (s.instrWord s.pc)) ∧
       t = (s.setSteps (s.steps + 1)).stop (.invalidOpcode s.pc (s.instrWord s.pc))) ∨
     (s.maxSteps ≠ some s.steps ∧ s.pc < storeWords ∧ ∃ i, decodeWith opc (s.instrWord s.pc) = .ok i ∧
       f i (s.setSteps (s.steps + 1)) = .next t)) := by
  unfold cycle whileRunning at h
  split at h
  · next hr =>
    refine ⟨hr, ?_⟩
    by_cases hb : s.maxSteps = some s.steps
    · simp only [budgetCheck, budgetSpent, hb, decide_true, if_true] at h
      exact .inl ⟨hb, raise_next.mp h⟩
    · simp only [budgetCheck, budgetSpent, hb, decide_false] at h
      by_cases hp : s.pc < storeWords
      · have hin : inStore s.pc = true := inStore_iff.mpr hp
        simp only [fetch, State.setSteps_pc, State.setSteps_instrWord, hin, Bool.false_eq_true, if_false, if_true] at h
        cases hd : decodeWith opc (s.instrWord s.pc) with
        | ok i =>
          simp only [decodeStage, hd] at h
          exact .inr (.inr (.inr ⟨hb, hp, i, rfl, h⟩))
        | error e =>
          obtain ⟨w⟩ := e
          have hw : w = s.instrWord s.pc := by
            unfold decodeWith at hd
            split at hd <;> cases hd
            rfl
          subst hw
          simp only [decodeStage, hd] at h
          exact .inr (.inr (.inl ⟨hb, hp, rfl, raise_next.mp h⟩))
      · have hin : inStore s.pc = false := by simpa [inStore] using hp
        simp only [fetch, State.setSteps_pc, hin, Bool.false_eq_true, if_false] at h
        exact .inr (.inl ⟨hb, by omega, raise_next.mp h⟩)
  · cases h

end Sys2Proof.Machine
end

