-- ==== Sys2Proof/Laws/Exec.lean ====
section
/-! SUPPORT. What an instruction can do, said once: `exec_effect` gives every next state of every instruction as one of a
few shapes of effect, and claims over all instructions follow by cases on the shape. -/

namespace Sys2Proof.Machine

@[simp] theorem namesReg_regField (r : Reg) : Field8.namesReg (regField r) = true := by
  have := r.isLt
  simp only [Field8.namesReg, regField_toNat, decide_eq_true_eq]; omega

theorem namesReg_out {f : Field8} (h : 32 ≤ f.toNat) : Field8.namesReg f = false := by
  simp [Field8.namesReg]; omega

/-- The shapes of effect of an instruction i from s. -/
inductive Effect : Instr → State → State → Prop where
  /-- The operand check reports its first offending field (R127). -/
  | operandStop {i s f} (h : i.offendingField = some f) (hf : 32 ≤ f.toNat) :
      Effect i s (s.stop (.registerIndexOutOfRange s.pc f.toNat))
  /-- cmp outside the domain of CMP_FN (R158, R265). -/
  | refuse {rc ra rb s} : Effect (.cmp rc ra rb) s (s.stop (.refused s.pc .cmp))
  /-- cmp where CMP_FN is defined with no value: nothing but pc + 1 (R158). -/
  | noValue {rc ra rb s} : Effect (.cmp rc ra rb) s s.advance
  /-- halt (R250). -/
  | halt {s} : Effect .halt s (s.stop (.halt s.pc))
  /-- load, store or pop at a bad address: nothing has changed (R56, R267). -/
  | dataStop {i s ea} (hm : i.mnemonic = .load ∨ i.mnemonic = .store ∨ i.mnemonic = .pop) (h : storeWords ≤ ea) :
      Effect i s (s.stop (.dataAddressOutOfRange ea))
  /-- push or call at a bad address: x[31] is already decremented (R200, R202). -/
  | stackStop {i s} (hm : i.mnemonic = .push ∨ i.mnemonic = .call) (h : storeWords ≤ stackAddr (decSp s)) :
      Effect i s ((decSp s).stop (.dataAddressOutOfRange (stackAddr (decSp s))))
  /-- One register result and pc + 1. -/
  | register {i s} (c : Reg) (v : Word) (hc : c.val ∈ writtenRegs i) (hr : ∃ m, categoryOf i.mnemonic = some m ∧ m ≠ .branchJump) :
      Effect i s (s.setReg c v).advance
  /-- store (R222). -/
  | store {s} (a b : Reg) (h : basePlusReg s b < storeWords) :
      Effect (.store (regField a) (regField b)) s (s.setDmem (s.dmem.write (basePlusReg s b) (s.reg a))).advance
  /-- push (R200). -/
  | push {s} (a : Reg) (h : stackAddr (decSp s) < storeWords) : Effect (.push (regField a)) s
      ((decSp s).setDmem ((decSp s).dmem.write (stackAddr (decSp s)) ((decSp s).reg a))).advance
  /-- pop (R201). -/
  | pop {s} (c : Reg) (h : stackAddr s < storeWords) : Effect (.pop (regField c)) s
      (incSp (s.setReg c (s.dataWord (stackAddr s)))).advance
  /-- call (R202). -/
  | call {s} (a : Reg) (h : stackAddr (decSp s) < storeWords) : Effect (.call (regField a)) s
      (((decSp s).setDmem ((decSp s).dmem.write (stackAddr (decSp s)) (linkWord s))).setPc ((decSp s).reg a).toNat)
  /-- jal (R231). -/
  | jal {s} (addr : BitVec 24) : Effect (.jal addr) s ((s.setReg sp (linkWord s)).setPc (basePlusAddr s addr))
  /-- A jump or a branch to BASE plus an offset below 2^32 (R26). -/
  | jump {i s} (off : Nat) (ho : off < 2 ^ 32) (hi : categoryOf i.mnemonic = some .branchJump) :
      Effect i s (s.setPc (s.base.val + off))
  /-- A branch not taken. -/
  | notTaken {i s} (hi : categoryOf i.mnemonic = some .branchJump) : Effect i s s.advance

theorem binaryAlu_next {op : Word → Word → Word} {rc ra rb : Field8} {s t : State}
    (h : binaryAlu op rc ra rb s = .next t) :
    (∃ a b c : Reg, ra = regField a ∧ rb = regField b ∧ rc = regField c ∧
      t = (s.setReg c (op (s.reg a) (s.reg b))).advance) ∨
    ∃ f, [ra, rb, rc].find? (fun f => !Field8.namesReg f) = some f ∧ 32 ≤ f.toNat ∧
      t = s.stop (.registerIndexOutOfRange s.pc f.toNat) := by
  obtain ⟨a, rfl, h1⟩ | ⟨hf, h1⟩ := withReg_next h
  · obtain ⟨b, rfl, h2⟩ | ⟨hf, h2⟩ := withReg_next h1
    · obtain ⟨c, rfl, h3⟩ | ⟨hf, h3⟩ := withReg_next h2
      · exact .inl ⟨a, b, c, rfl, rfl, rfl, writeBack_next.mp h3⟩
      · exact .inr ⟨rc, by simp [namesReg_out hf], hf, h3⟩
    · exact .inr ⟨rb, by simp [namesReg_out hf], hf, h2⟩
  · exact .inr ⟨ra, by simp [namesReg_out hf], hf, h1⟩

theorem updateReg_next {op : Word → Word} {rc : Field8} {s t : State} (h : updateReg op rc s = .next t) :
    (∃ c : Reg, rc = regField c ∧ t = (s.setReg c (op (s.reg c))).advance) ∨
    ∃ f, [rc].find? (fun f => !Field8.namesReg f) = some f ∧ 32 ≤ f.toNat ∧
      t = s.stop (.registerIndexOutOfRange s.pc f.toNat) := by
  obtain ⟨c, rfl, h1⟩ | ⟨hf, h1⟩ := withReg_next h
  · exact .inl ⟨c, rfl, writeBack_next.mp h1⟩
  · exact .inr ⟨rc, by simp [namesReg_out hf], hf, h1⟩

theorem moveReg_next {op : Word → Word} {rc ra : Field8} {s t : State} (h : moveReg op rc ra s = .next t) :
    (∃ a c : Reg, ra = regField a ∧ rc = regField c ∧ t = (s.setReg c (op (s.reg a))).advance) ∨
    ∃ f, [ra, rc].find? (fun f => !Field8.namesReg f) = some f ∧ 32 ≤ f.toNat ∧
      t = s.stop (.registerIndexOutOfRange s.pc f.toNat) := by
  obtain ⟨a, rfl, h1⟩ | ⟨hf, h1⟩ := withReg_next h
  · obtain ⟨c, rfl, h2⟩ | ⟨hf, h2⟩ := withReg_next h1
    · exact .inl ⟨a, c, rfl, rfl, writeBack_next.mp h2⟩
    · exact .inr ⟨rc, by simp [namesReg_out hf], hf, h2⟩
  · exact .inr ⟨ra, by simp [namesReg_out hf], hf, h1⟩

theorem branchIf_next {b : Bool} {addr8 : Field8} {s t : State} (h : branchIf b addr8 s = .next t) :
    t = if b then s.setPc (s.base.val + addr8.toNat) else s.advance := by
  simpa [branchIf, basePlusAddr, eq_comm] using h

section Shapes
variable {s t : State}

theorem effect_binary {i : Instr} {op : Word → Word → Word} {rc ra rb : Field8} (hf : i.regFields = [ra, rb, rc])
    (hw : writtenRegs i = [rc.toNat]) (hc : categoryOf i.mnemonic = some .registerAlu)
    (h : binaryAlu op rc ra rb s = .next t) : Effect i s t := by
  obtain ⟨a, b, c, -, -, rfl, rfl⟩ | ⟨f, h1, h2, rfl⟩ := binaryAlu_next h
  · exact .register c _ (by simp [hw, regField_toNat]) ⟨_, hc, by decide⟩
  · exact .operandStop (by rw [Instr.offendingField, hf]; exact h1) h2

theorem effect_update {i : Instr} {op : Word → Word} {rc : Field8} (hf : i.regFields = [rc])
    (hw : writtenRegs i = [rc.toNat]) (hc : categoryOf i.mnemonic = some .registerAlu)
    (h : updateReg op rc s = .next t) : Effect i s t := by
  obtain ⟨c, rfl, rfl⟩ | ⟨f, h1, h2, rfl⟩ := updateReg_next h
  · exact .register c _ (by simp [hw, regField_toNat]) ⟨_, hc, by decide⟩
  · exact .operandStop (by rw [Instr.offendingField, hf]; exact h1) h2

theorem effect_move {i : Instr} {op : Word → Word} {rc ra : Field8} (hf : i.regFields = [ra, rc])
    (hw : writtenRegs i = [rc.toNat]) (hc : categoryOf i.mnemonic = some .registerAlu)
    (h : moveReg op rc ra s = .next t) : Effect i s t := by
  obtain ⟨a, c, -, rfl, rfl⟩ | ⟨f, h1, h2, rfl⟩ := moveReg_next h
  · exact .register c _ (by simp [hw, regField_toNat]) ⟨_, hc, by decide⟩
  · exact .operandStop (by rw [Instr.offendingField, hf]; exact h1) h2

theorem effect_cmp {rc ra rb : Field8} (h : execCmp rc ra rb s = .next t) : Effect (.cmp rc ra rb) s t := by
  obtain ⟨a, rfl, h1⟩ | ⟨hf, rfl⟩ := withReg_next h
  · obtain ⟨b, rfl, h2⟩ | ⟨hf, rfl⟩ := withReg_next h1
    · obtain ⟨c, rfl, h3⟩ | ⟨hf, rfl⟩ := withReg_next h2
      · split at h3
        · rw [writeBack_next.mp h3]
          exact .register c _ (by simp [writtenRegs, regField_toNat]) ⟨_, rfl, by decide⟩
        · cases h3; exact .noValue
        · rw [raise_next.mp h3]; exact .refuse
      · exact .operandStop (by simp [Instr.offendingField, Instr.regFields, namesReg_out hf]) hf
    · exact .operandStop (by simp [Instr.offendingField, Instr.regFields, namesReg_out hf]) hf
  · exact .operandStop (by simp [Instr.offendingField, Instr.regFields, namesReg_out hf]) hf

theorem effect_push {ra : Field8} (h : execPush ra s = .next t) : Effect (.push ra) s t := by
  obtain ⟨a, rfl, h1⟩ | ⟨hf, rfl⟩ := withReg_next h
  · obtain ⟨ha, h2⟩ | ⟨ha, rfl⟩ := memWrite_next h1
    · cases h2; exact .push a ha
    · exact .stackStop (.inl rfl) ha
  · exact .operandStop (by simp [Instr.offendingField, Instr.regFields, namesReg_out hf]) hf

theorem effect_pop {rc : Field8} (h : execPop rc s = .next t) : Effect (.pop rc) s t := by
  obtain ⟨c, rfl, h1⟩ | ⟨hf, rfl⟩ := withReg_next h
  · obtain ⟨ha, h2⟩ | ⟨ha, rfl⟩ := memRead_next h1
    · cases h2; exact .pop c ha
    · exact .dataStop (.inr (.inr rfl)) ha
  · exact .operandStop (by simp [Instr.offendingField, Instr.regFields, namesReg_out hf]) hf

theorem effect_call {ra : Field8} (h : execCall ra s = .next t) : Effect (.call ra) s t := by
  obtain ⟨a, rfl, h1⟩ | ⟨hf, rfl⟩ := withReg_next h
  · obtain ⟨ha, h2⟩ | ⟨ha, rfl⟩ := memWrite_next h1
    · cases h2; exact .call a ha
    · exact .stackStop (.inr rfl) ha
  · exact .operandStop (by simp [Instr.offendingField, Instr.regFields, namesReg_out hf]) hf

theorem effect_load {rc ra : Field8} (h : execLoad rc ra s = .next t) : Effect (.load rc ra) s t := by
  obtain ⟨a, rfl, h1⟩ | ⟨hf, rfl⟩ := withReg_next h
  · obtain ⟨c, rfl, h2⟩ | ⟨hf, rfl⟩ := withReg_next h1
    · obtain ⟨ha, h3⟩ | ⟨ha, rfl⟩ := memRead_next h2
      · rw [writeBack_next.mp h3]
        exact .register c _ (by simp [writtenRegs, regField_toNat]) ⟨_, rfl, by decide⟩
      · exact .dataStop (.inl rfl) ha
    · exact .operandStop (by simp [Instr.offendingField, Instr.regFields, namesReg_out hf]) hf
  · exact .operandStop (by simp [Instr.offendingField, Instr.regFields, namesReg_out hf]) hf

theorem effect_store {ra rb : Field8} (h : execStore ra rb s = .next t) : Effect (.store ra rb) s t := by
  obtain ⟨a, rfl, h1⟩ | ⟨hf, rfl⟩ := withReg_next h
  · obtain ⟨b, rfl, h2⟩ | ⟨hf, rfl⟩ := withReg_next h1
    · obtain ⟨ha, h3⟩ | ⟨ha, rfl⟩ := memWrite_next h2
      · cases h3; exact .store a b ha
      · exact .dataStop (.inr (.inl rfl)) ha
    · exact .operandStop (by simp [Instr.offendingField, Instr.regFields, namesReg_out hf]) hf
  · exact .operandStop (by simp [Instr.offendingField, Instr.regFields, namesReg_out hf]) hf

theorem effect_jr {ra : Field8} (h : execJr ra s = .next t) : Effect (.jr ra) s t := by
  obtain ⟨a, rfl, h1⟩ | ⟨hf, rfl⟩ := withReg_next h
  · cases h1; exact .jump _ (s.reg a).isLt rfl
  · exact .operandStop (by simp [Instr.offendingField, Instr.regFields, namesReg_out hf]) hf

theorem effect_branchIf {i : Instr} {b : Bool} {addr8 : Field8} (hi : categoryOf i.mnemonic = some .branchJump)
    (h : branchIf b addr8 s = .next t) : Effect i s t := by
  rw [branchIf_next h]
  split
  · exact .jump _ (Nat.lt_of_lt_of_le addr8.isLt (by norm_num)) hi
  · exact .notTaken hi

theorem effect_beq {ra rb addr8 : Field8} (h : execBeq ra rb addr8 s = .next t) : Effect (.beq ra rb addr8) s t := by
  obtain ⟨a, rfl, h1⟩ | ⟨hf, rfl⟩ := withReg_next h
  · obtain ⟨b, rfl, h2⟩ | ⟨hf, rfl⟩ := withReg_next h1
    · exact effect_branchIf rfl h2
    · exact .operandStop (by simp [Instr.offendingField, Instr.regFields, namesReg_out hf]) hf
  · exact .operandStop (by simp [Instr.offendingField, Instr.regFields, namesReg_out hf]) hf

theorem effect_bne {ra rb addr8 : Field8} (h : execBne ra rb addr8 s = .next t) : Effect (.bne ra rb addr8) s t := by
  obtain ⟨a, rfl, h1⟩ | ⟨hf, rfl⟩ := withReg_next h
  · obtain ⟨b, rfl, h2⟩ | ⟨hf, rfl⟩ := withReg_next h1
    · exact effect_branchIf rfl h2
    · exact .operandStop (by simp [Instr.offendingField, Instr.regFields, namesReg_out hf]) hf
  · exact .operandStop (by simp [Instr.offendingField, Instr.regFields, namesReg_out hf]) hf

end Shapes

/-- Every next state of every instruction is one of the shapes of effect. -/
theorem exec_effect {i : Instr} {s t : State} (h : exec i s = .next t) : Effect i s t := by
  cases i with
  | add rc ra rb => simp only [exec, execAdd] at h; exact effect_binary rfl rfl rfl h
  | sub rc ra rb => simp only [exec, execSub] at h; exact effect_binary rfl rfl rfl h
  | xor rc ra rb => simp only [exec, execXor] at h; exact effect_binary rfl rfl rfl h
  | or rc ra rb => simp only [exec, execOr] at h; exact effect_binary rfl rfl rfl h
  | and rc ra rb => simp only [exec, execAnd] at h; exact effect_binary rfl rfl rfl h
  | mult rc ra rb => simp only [exec, execMult] at h; exact effect_binary rfl rfl rfl h
  | div rc ra rb => simp only [exec, execDiv] at h; exact effect_binary rfl rfl rfl h
  | cmp rc ra rb => exact effect_cmp h
  | asl rc ra rb => simp only [exec, execAsl] at h; exact effect_move rfl rfl rfl h
  | asr rc ra rb => simp only [exec, execAsr] at h; exact effect_move rfl rfl rfl h
  | lsl rc ra rb => simp only [exec, execLsl] at h; exact effect_move rfl rfl rfl h
  | lsr rc ra rb => simp only [exec, execLsr] at h; exact effect_move rfl rfl rfl h
  | inc rc => simp only [exec, execInc] at h; exact effect_update rfl rfl rfl h
  | dec rc => simp only [exec, execDec] at h; exact effect_update rfl rfl rfl h
  | zeros rc => simp only [exec, execZeros] at h; exact effect_update rfl rfl rfl h
  | passnota rc ra => simp only [exec, execPassnota] at h; exact effect_move rfl rfl rfl h
  | passa rc ra => simp only [exec, execPassa] at h; exact effect_move rfl rfl rfl h
  | lcl rc imm16 => simp only [exec, execLcl] at h; exact effect_update rfl rfl rfl h
  | lch rc imm16 => simp only [exec, execLch] at h; exact effect_update rfl rfl rfl h
  | push ra => exact effect_push h
  | pop rc => exact effect_pop h
  | call ra => exact effect_call h
  | ret => cases h; exact .jump _ (s.reg sp).isLt rfl
  | load rc ra => exact effect_load h
  | store ra rb => exact effect_store h
  | j addr24 => cases h; exact .jump _ (Nat.lt_of_lt_of_le addr24.isLt (by norm_num)) rfl
  | jal addr24 => cases h; exact .jal addr24
  | jr ra => exact effect_jr h
  | beq ra rb addr8 => exact effect_beq h
  | bne ra rb addr8 => exact effect_bne h
  | halt => cases h; exact .halt

end Sys2Proof.Machine
end

