-- ==== Sys2Proof/Laws/PerInstr.lean ====
section
/-! SUPPORT. The per-instruction family EncodedOpcode: the canonical word of an instruction carries its mnemonic's opcode
(30_encoding R82, R88, R92, R93). -/

/-- Under every admissible opcode map the opcode field of the encoded word is the mnemonic's opcode. -/
def Sys2Proof.Laws.EncodedOpcode.Statement (i : Sys2Proof.Instr) : Prop :=
  ∀ opc, Sys2Proof.OpcodeMap.Admissible opc → Sys2Proof.opcodeField (Sys2Proof.encodeWith opc i) = opc i.mnemonic

theorem Sys2Proof.Laws.EncodedOpcode.add (rc ra rb : Sys2Proof.Field8) :
    Sys2Proof.Laws.EncodedOpcode.Statement (.add rc ra rb) := by
  intro opc _; simp [Sys2Proof.encodeWith, Sys2Proof.Instr.mnemonic]

theorem Sys2Proof.Laws.EncodedOpcode.sub (rc ra rb : Sys2Proof.Field8) :
    Sys2Proof.Laws.EncodedOpcode.Statement (.sub rc ra rb) := by
  intro opc _; simp [Sys2Proof.encodeWith, Sys2Proof.Instr.mnemonic]

theorem Sys2Proof.Laws.EncodedOpcode.xor (rc ra rb : Sys2Proof.Field8) :
    Sys2Proof.Laws.EncodedOpcode.Statement (.xor rc ra rb) := by
  intro opc _; simp [Sys2Proof.encodeWith, Sys2Proof.Instr.mnemonic]

theorem Sys2Proof.Laws.EncodedOpcode.or (rc ra rb : Sys2Proof.Field8) :
    Sys2Proof.Laws.EncodedOpcode.Statement (.or rc ra rb) := by
  intro opc _; simp [Sys2Proof.encodeWith, Sys2Proof.Instr.mnemonic]

theorem Sys2Proof.Laws.EncodedOpcode.and (rc ra rb : Sys2Proof.Field8) :
    Sys2Proof.Laws.EncodedOpcode.Statement (.and rc ra rb) := by
  intro opc _; simp [Sys2Proof.encodeWith, Sys2Proof.Instr.mnemonic]

theorem Sys2Proof.Laws.EncodedOpcode.mult (rc ra rb : Sys2Proof.Field8) :
    Sys2Proof.Laws.EncodedOpcode.Statement (.mult rc ra rb) := by
  intro opc _; simp [Sys2Proof.encodeWith, Sys2Proof.Instr.mnemonic]

theorem Sys2Proof.Laws.EncodedOpcode.div (rc ra rb : Sys2Proof.Field8) :
    Sys2Proof.Laws.EncodedOpcode.Statement (.div rc ra rb) := by
  intro opc _; simp [Sys2Proof.encodeWith, Sys2Proof.Instr.mnemonic]

theorem Sys2Proof.Laws.EncodedOpcode.cmp (rc ra rb : Sys2Proof.Field8) :
    Sys2Proof.Laws.EncodedOpcode.Statement (.cmp rc ra rb) := by
  intro opc _; simp [Sys2Proof.encodeWith, Sys2Proof.Instr.mnemonic]

theorem Sys2Proof.Laws.EncodedOpcode.asl (rc ra rb : Sys2Proof.Field8) :
    Sys2Proof.Laws.EncodedOpcode.Statement (.asl rc ra rb) := by
  intro opc _; simp [Sys2Proof.encodeWith, Sys2Proof.Instr.mnemonic]

theorem Sys2Proof.Laws.EncodedOpcode.asr (rc ra rb : Sys2Proof.Field8) :
    Sys2Proof.Laws.EncodedOpcode.Statement (.asr rc ra rb) := by
  intro opc _; simp [Sys2Proof.encodeWith, Sys2Proof.Instr.mnemonic]

theorem Sys2Proof.Laws.EncodedOpcode.lsl (rc ra rb : Sys2Proof.Field8) :
    Sys2Proof.Laws.EncodedOpcode.Statement (.lsl rc ra rb) := by
  intro opc _; simp [Sys2Proof.encodeWith, Sys2Proof.Instr.mnemonic]

theorem Sys2Proof.Laws.EncodedOpcode.lsr (rc ra rb : Sys2Proof.Field8) :
    Sys2Proof.Laws.EncodedOpcode.Statement (.lsr rc ra rb) := by
  intro opc _; simp [Sys2Proof.encodeWith, Sys2Proof.Instr.mnemonic]

theorem Sys2Proof.Laws.EncodedOpcode.inc (rc : Sys2Proof.Field8) :
    Sys2Proof.Laws.EncodedOpcode.Statement (.inc rc) := by
  intro opc _; simp [Sys2Proof.encodeWith, Sys2Proof.Instr.mnemonic]

theorem Sys2Proof.Laws.EncodedOpcode.dec (rc : Sys2Proof.Field8) :
    Sys2Proof.Laws.EncodedOpcode.Statement (.dec rc) := by
  intro opc _; simp [Sys2Proof.encodeWith, Sys2Proof.Instr.mnemonic]

theorem Sys2Proof.Laws.EncodedOpcode.zeros (rc : Sys2Proof.Field8) :
    Sys2Proof.Laws.EncodedOpcode.Statement (.zeros rc) := by
  intro opc _; simp [Sys2Proof.encodeWith, Sys2Proof.Instr.mnemonic]

theorem Sys2Proof.Laws.EncodedOpcode.passnota (rc ra : Sys2Proof.Field8) :
    Sys2Proof.Laws.EncodedOpcode.Statement (.passnota rc ra) := by
  intro opc _; simp [Sys2Proof.encodeWith, Sys2Proof.Instr.mnemonic]

theorem Sys2Proof.Laws.EncodedOpcode.passa (rc ra : Sys2Proof.Field8) :
    Sys2Proof.Laws.EncodedOpcode.Statement (.passa rc ra) := by
  intro opc _; simp [Sys2Proof.encodeWith, Sys2Proof.Instr.mnemonic]

theorem Sys2Proof.Laws.EncodedOpcode.lcl (rc : Sys2Proof.Field8) (imm16 : BitVec 16) :
    Sys2Proof.Laws.EncodedOpcode.Statement (.lcl rc imm16) := by
  intro opc _; simp only [Sys2Proof.encodeWith, Sys2Proof.append_imm16]; simp [Sys2Proof.Instr.mnemonic]

theorem Sys2Proof.Laws.EncodedOpcode.lch (rc : Sys2Proof.Field8) (imm16 : BitVec 16) :
    Sys2Proof.Laws.EncodedOpcode.Statement (.lch rc imm16) := by
  intro opc _; simp only [Sys2Proof.encodeWith, Sys2Proof.append_imm16]; simp [Sys2Proof.Instr.mnemonic]

theorem Sys2Proof.Laws.EncodedOpcode.push (ra : Sys2Proof.Field8) :
    Sys2Proof.Laws.EncodedOpcode.Statement (.push ra) := by
  intro opc _; simp [Sys2Proof.encodeWith, Sys2Proof.Instr.mnemonic]

theorem Sys2Proof.Laws.EncodedOpcode.pop (rc : Sys2Proof.Field8) :
    Sys2Proof.Laws.EncodedOpcode.Statement (.pop rc) := by
  intro opc _; simp [Sys2Proof.encodeWith, Sys2Proof.Instr.mnemonic]

theorem Sys2Proof.Laws.EncodedOpcode.call (ra : Sys2Proof.Field8) :
    Sys2Proof.Laws.EncodedOpcode.Statement (.call ra) := by
  intro opc _; simp [Sys2Proof.encodeWith, Sys2Proof.Instr.mnemonic]

theorem Sys2Proof.Laws.EncodedOpcode.ret :
    Sys2Proof.Laws.EncodedOpcode.Statement .ret := by
  intro opc _; simp [Sys2Proof.encodeWith, Sys2Proof.Instr.mnemonic]

theorem Sys2Proof.Laws.EncodedOpcode.load (rc ra : Sys2Proof.Field8) :
    Sys2Proof.Laws.EncodedOpcode.Statement (.load rc ra) := by
  intro opc _; simp [Sys2Proof.encodeWith, Sys2Proof.Instr.mnemonic]

theorem Sys2Proof.Laws.EncodedOpcode.store (ra rb : Sys2Proof.Field8) :
    Sys2Proof.Laws.EncodedOpcode.Statement (.store ra rb) := by
  intro opc _; simp [Sys2Proof.encodeWith, Sys2Proof.Instr.mnemonic]

theorem Sys2Proof.Laws.EncodedOpcode.j (addr24 : BitVec 24) :
    Sys2Proof.Laws.EncodedOpcode.Statement (.j addr24) := by
  intro opc _; simp only [Sys2Proof.encodeWith, Sys2Proof.append_addr24]; simp [Sys2Proof.Instr.mnemonic]

theorem Sys2Proof.Laws.EncodedOpcode.jal (addr24 : BitVec 24) :
    Sys2Proof.Laws.EncodedOpcode.Statement (.jal addr24) := by
  intro opc _; simp only [Sys2Proof.encodeWith, Sys2Proof.append_addr24]; simp [Sys2Proof.Instr.mnemonic]

theorem Sys2Proof.Laws.EncodedOpcode.jr (ra : Sys2Proof.Field8) :
    Sys2Proof.Laws.EncodedOpcode.Statement (.jr ra) := by
  intro opc _; simp [Sys2Proof.encodeWith, Sys2Proof.Instr.mnemonic]

theorem Sys2Proof.Laws.EncodedOpcode.beq (ra rb : Sys2Proof.Field8) (addr8 : Sys2Proof.Field8) :
    Sys2Proof.Laws.EncodedOpcode.Statement (.beq ra rb addr8) := by
  intro opc _; simp [Sys2Proof.encodeWith, Sys2Proof.Instr.mnemonic]

theorem Sys2Proof.Laws.EncodedOpcode.bne (ra rb : Sys2Proof.Field8) (addr8 : Sys2Proof.Field8) :
    Sys2Proof.Laws.EncodedOpcode.Statement (.bne ra rb addr8) := by
  intro opc _; simp [Sys2Proof.encodeWith, Sys2Proof.Instr.mnemonic]

theorem Sys2Proof.Laws.EncodedOpcode.halt :
    Sys2Proof.Laws.EncodedOpcode.Statement .halt := by
  intro opc h; exact Eq.trans (show Sys2Proof.opcodeField 0xFFFFFFFF = 0xFF by decide) h.2.symm
end

