-- ==== Sys2Proof/Laws/Text.lean ====
section
/-! SUPPORT. The tokens of a text without separators, after any gap; the rest of a directive line; the loader over an
appended image. -/

namespace Sys2Proof.Machine

theorem foldr_pushChar {sep : Char → Bool} : ∀ {t : Line}, (∀ c ∈ t, sep c = false) → t.foldr (pushChar sep) [[]] = [t]
  | [], _ => rfl
  | c :: t, h => by
    rw [List.foldr_cons, foldr_pushChar fun d hd => h d (List.mem_cons_of_mem _ hd)]
    simp [pushChar, h c List.mem_cons_self]

theorem foldr_pushChar_gap {sep : Char → Bool} (t : Line) : ∀ {g : Line}, (∀ c ∈ g, sep c = true) →
    g.foldr (pushChar sep) [t] = List.replicate g.length [] ++ [t]
  | [], _ => rfl
  | c :: g, h => by
    rw [List.foldr_cons, foldr_pushChar_gap t fun d hd => h d (List.mem_cons_of_mem _ hd)]
    cases g <;> simp [pushChar, h c List.mem_cons_self, List.replicate_succ]

/-- A gap of separators and then a text without any has that text as its only token, if it is not empty. -/
theorem tokens_gap {sep : Char → Bool} {g t : Line} (hg : ∀ c ∈ g, sep c = true) (ht : ∀ c ∈ t, sep c = false) :
    tokens sep (g ++ t) = if t = [] then [] else [t] := by
  unfold tokens
  rw [List.foldr_append, foldr_pushChar ht, foldr_pushChar_gap t hg]
  by_cases h : t = [] <;> simp [h]

@[simp] theorem directiveRest_address (rest : Line) : directiveRest (addressWord ++ rest) = some rest := by
  simp [directiveRest, addressWord, isSeparator, isBlank]

/-- Loading an image in two parts. -/
theorem LoaderState.lines_append : ∀ {l₁ : List Line} (l₂ : List Line) {st st' : LoaderState},
    st.lines l₁ = .ok st' → st.lines (l₁ ++ l₂) = st'.lines l₂
  | [], _, _, _, h => by cases h; rfl
  | l :: l₁, l₂, st, st', h => by
    simp only [List.cons_append, LoaderState.lines] at h ⊢
    split at h
    · cases h
    · exact LoaderState.lines_append l₂ h
    · split at h
      · cases h
      · exact LoaderState.lines_append l₂ h

end Sys2Proof.Machine
end

