-- ==== Sys2Proof/Tests/Slice0.lean ====
section
/-! SUPPORT. Small tests: ill-formed terms, decoding of words written out from the encodings of 30_encoding R88 and R91,
one step per vector of 95_test_vectors (its id stands in each name or comment), and for every statement with hypotheses a
state and operands that meet them (test_witness_<the statement>). -/

namespace Sys2Proof.Machine.Tests

/-! Helpers -/

/-- A running core at address T with BASE b and these registers; all else as after reset. -/
def core (T : Nat) (b : BaseAddr) (regs : List (Reg × Word)) : State :=
  regs.foldl (fun s p => s.setReg p.1 p.2) { State.reset with pc := T, base := b }

/-- One step that fetches this word. -/
def run1 (s : State) (w : Word) : Out := step (placeAtPc s w)

/-- A view of the next state. -/
def look {α : Type} (f : State → α) : Out → Option α
  | .next t => some (f t)
  | _ => none

/-- Register c, pc and the run state of the next state. -/
def regPcRun (c : Reg) : Out → Option (Word × Nat × RunState) := look fun t => (t.reg c, t.pc, t.run)

/-- Data cell a, pc and the run state of the next state. -/
def cellPcRun (a : Nat) : Out → Option (Word × Nat × RunState) := look fun t => (t.dataWord a, t.pc, t.run)

/-- The two registers named and pc of the next state. -/
def regsPc (c d : Reg) : Out → Option (Word × Word × Nat) := look fun t => (t.reg c, t.reg d, t.pc)

/-- The state with one data cell set. -/
def withData (s : State) (a : Nat) (v : Word) : State := s.setDmem (s.dmem.write a v)

/-! Well-formedness: each check with a term it refuses -/

theorem test_illformed_sub :
    Instr.wellFormed (.sub 3 32 2) = false ∧ Instr.wellFormed (.sub 3 1 32) = false ∧ Instr.wellFormed (.sub 255 1 2) = false := by
  decide

theorem test_illformed_xor :
    Instr.wellFormed (.xor 3 32 2) = false ∧ Instr.wellFormed (.xor 3 1 32) = false ∧ Instr.wellFormed (.xor 255 1 2) = false := by
  decide

theorem test_illformed_or :
    Instr.wellFormed (.or 3 32 2) = false ∧ Instr.wellFormed (.or 3 1 32) = false ∧ Instr.wellFormed (.or 255 1 2) = false := by
  decide

theorem test_illformed_and :
    Instr.wellFormed (.and 3 32 2) = false ∧ Instr.wellFormed (.and 3 1 32) = false ∧ Instr.wellFormed (.and 255 1 2) = false := by
  decide

theorem test_illformed_mult :
    Instr.wellFormed (.mult 3 32 2) = false ∧ Instr.wellFormed (.mult 3 1 32) = false ∧ Instr.wellFormed (.mult 255 1 2) = false := by
  decide

theorem test_illformed_div :
    Instr.wellFormed (.div 3 32 2) = false ∧ Instr.wellFormed (.div 3 1 32) = false ∧ Instr.wellFormed (.div 255 1 2) = false := by
  decide

theorem test_illformed_cmp :
    Instr.wellFormed (.cmp 3 32 2) = false ∧ Instr.wellFormed (.cmp 3 1 32) = false ∧ Instr.wellFormed (.cmp 255 1 2) = false := by
  decide

theorem test_illformed_add :
    Instr.wellFormed (.add 3 32 2) = false ∧ Instr.wellFormed (.add 3 1 32) = false ∧ Instr.wellFormed (.add 255 1 2) = false := by
  decide

/-- rb of a shift is no register index (R190; vector S8). -/
theorem test_illformed_shifts :
    Instr.wellFormed (.asl 32 1 2) = false ∧ Instr.wellFormed (.asl 3 32 2) = false ∧
    Instr.wellFormed (.asr 32 1 2) = false ∧ Instr.wellFormed (.asr 3 32 2) = false ∧
    Instr.wellFormed (.lsl 32 1 2) = false ∧ Instr.wellFormed (.lsl 3 32 2) = false ∧
    Instr.wellFormed (.lsr 32 1 2) = false ∧ Instr.wellFormed (.lsr 3 32 2) = false ∧
    Instr.wellFormed (.asr 3 1 255) = true := by decide

theorem test_illformed_unary :
    Instr.wellFormed (.inc 32) = false ∧ Instr.wellFormed (.dec 32) = false ∧ Instr.wellFormed (.zeros 32) = false ∧
    Instr.wellFormed (.passnota 32 1) = false ∧ Instr.wellFormed (.passnota 1 32) = false ∧
    Instr.wellFormed (.passa 32 1) = false ∧ Instr.wellFormed (.passa 1 32) = false ∧
    Instr.wellFormed (.lcl 32 5) = false ∧ Instr.wellFormed (.lch 32 5) = false := by decide

theorem test_illformed_stack_memory_jump :
    Instr.wellFormed (.push 32) = false ∧ Instr.wellFormed (.pop 32) = false ∧ Instr.wellFormed (.call 32) = false ∧
    Instr.wellFormed (.load 32 1) = false ∧ Instr.wellFormed (.load 1 32) = false ∧
    Instr.wellFormed (.store 32 1) = false ∧ Instr.wellFormed (.store 1 32) = false ∧
    Instr.wellFormed (.jr 32) = false ∧
    Instr.wellFormed (.beq 32 1 7) = false ∧ Instr.wellFormed (.beq 1 32 7) = false ∧
    Instr.wellFormed (.bne 32 1 7) = false ∧ Instr.wellFormed (.bne 1 32 7) = false := by decide

theorem test_wellformed :
    Instr.wellFormed (.add 31 0 31) = true ∧ Instr.wellFormed (.lcl 1 0xFFFF) = true ∧
    Instr.wellFormed (.j 0xFFFFFF) = true ∧ Instr.wellFormed (.beq 31 31 255) = true ∧
    Instr.wellFormed .ret = true ∧ Instr.wellFormed .halt = true := by decide

/-- The first offending field in the order f1, f2, f3 (R127): rb (f2) before rc (f3) of an RRR word. -/
theorem test_offending_order : Instr.offendingField (.add 40 1 33) = some 33 ∧
    Instr.offendingField (.add 40 50 33) = some 50 ∧ Instr.offendingField (.lcl 40 0xFFFF) = some 40 := by decide

/-! Decoding: each constructor from a word written out bit by bit (R88, R91) -/

theorem test_decode_add : decode 0b00000001000000010000001000000011 = .ok (.add 3 1 2) := by decide

theorem test_decode_sub : decode 0b00000010000001000000010100000110 = .ok (.sub 6 4 5) := by decide

theorem test_decode_zeros : decode 0b00000011000000000000000000000010 = .ok (.zeros 2) := by decide

theorem test_decode_xor : decode 0b00000100000000010000001000000011 = .ok (.xor 3 1 2) := by decide

theorem test_decode_or : decode 0b00000101000000010000001000000011 = .ok (.or 3 1 2) := by decide

theorem test_decode_passnota : decode 0b00000110000000100000000000000011 = .ok (.passnota 3 2) := by decide

theorem test_decode_and : decode 0b00000111000000010000001000000011 = .ok (.and 3 1 2) := by decide

theorem test_decode_asl : decode 0b00001000000000010000001000000011 = .ok (.asl 3 1 2) := by decide

theorem test_decode_asr : decode 0b00001001000000011111111100000011 = .ok (.asr 3 1 255) := by decide

theorem test_decode_lsl : decode 0b00001010000000010000001000000011 = .ok (.lsl 3 1 2) := by decide

theorem test_decode_lsr : decode 0b00001011000000010000001000000011 = .ok (.lsr 3 1 2) := by decide

theorem test_decode_passa : decode 0b00001100000111110000000000001010 = .ok (.passa 10 31) := by decide

theorem test_decode_lch : decode 0b00001110101010111100110100000010 = .ok (.lch 2 0xABCD) := by decide

theorem test_decode_lcl : decode 0b00001111000100100011010000000001 = .ok (.lcl 1 0x1234) := by decide

theorem test_decode_load : decode 0b00010000000000010000000000000100 = .ok (.load 4 1) := by decide

theorem test_decode_store : decode 0b00010001000000100000000100000000 = .ok (.store 2 1) := by decide

theorem test_decode_jal : decode 0b00010010000000010000001000000011 = .ok (.jal 0x010203) := by decide

theorem test_decode_jr : decode 0b00010011000010100000000000000000 = .ok (.jr 10) := by decide

theorem test_decode_beq : decode 0b00010100000000010000001000000111 = .ok (.beq 1 2 7) := by decide

theorem test_decode_bne : decode 0b00010101000000110000010011111111 = .ok (.bne 3 4 255) := by decide

theorem test_decode_j : decode 0b00010110111111110000000000000001 = .ok (.j 0xFF0001) := by decide

theorem test_decode_mult : decode 0b00010111000000010000001000000011 = .ok (.mult 3 1 2) := by decide

theorem test_decode_div : decode 0b00011000000000010000001000000011 = .ok (.div 3 1 2) := by decide

theorem test_decode_cmp : decode 0b00011001000000010000001000000011 = .ok (.cmp 3 1 2) := by decide

theorem test_decode_inc : decode 0b00011010001000000010000000000001 = .ok (.inc 1) := by decide

theorem test_decode_dec : decode 0b00011011000000000000000000000001 = .ok (.dec 1) := by decide

theorem test_decode_push : decode 0b00011100000000010000000000000000 = .ok (.push 1) := by decide

theorem test_decode_pop : decode 0b00011101000000110000010100000111 = .ok (.pop 5) := by decide

theorem test_decode_call : decode 0b00011110000001010000000000000000 = .ok (.call 5) := by decide

theorem test_decode_ret : decode 0b00011111000000000000000000000000 = .ok .ret := by decide

theorem test_decode_halt : decode 0b11111111111111111111111111111111 = .ok .halt := by decide

/-- Illegal words (R94; vectors X3, X4, X5), and a halt word that is not all ones (X2). -/
theorem test_decode_illegal : decode 0 = .error (.invalidOpcode 0) ∧
    decode 0x0D010203 = .error (.invalidOpcode 0x0D010203) ∧ decode 0x20000000 = .error (.invalidOpcode 0x20000000) ∧
    decode 0xFE000000 = .error (.invalidOpcode 0xFE000000) ∧ decode 0xFF000000 = .ok .halt := by decide

/-- Words of the worked programs, encoded (95_test_vectors section 10). -/
theorem test_encode : encode (.lcl 31 32768) = 0x0F80001F ∧ encode (.push 1) = 0x1C010000 ∧
    encode (.pop 3) = 0x1D000300 ∧ encode (.jal 8) = 0x12000008 ∧ encode (.store 3 1) = 0x11030100 ∧
    encode (.load 5 1) = 0x10010005 ∧ encode (.div 4 1 3) = 0x18010304 ∧ encode (.passnota 3 2) = 0x06020003 ∧
    encode .halt = 0xFFFFFFFF := by decide

/-- The host's entry: the same word as bits of a table row; a longer instruction does not exist. -/
theorem test_decodeTableWord : decodeTableWord 32 0x01010203 = some (.add 3 1 2) ∧
    decodeTableWord 32 0x0D000000 = none ∧ decodeTableWord 64 0x01010203 = none := by decide

/-- The instruction the host places is the one the next step runs: inc r1 right after reset. -/
theorem test_withFetchWord :
    regPcRun 1 (step (State.reset.withFetchWord 32 0x1A000001)) = some (1, 1, .running) := by decide

/-! One step: two-source ALU -/

theorem test_add_A1 :
    regPcRun 3 (run1 (core 0 0 [(1, 0xFFFFFFFF), (2, 1), (3, 0x37)]) 0x01010203) = some (0, 1, .running) := by decide

theorem test_add_A3 :
    regPcRun 1 (run1 (core 0 0 [(1, 0x80000001)]) 0x01010101) = some (2, 1, .running) := by decide

theorem test_sub_A5 :
    regPcRun 3 (run1 (core 0 0 [(1, 5), (2, 7)]) 0x02010203) = some (0xFFFFFFFE, 1, .running) := by decide

theorem test_xor_A8 :
    regPcRun 3 (run1 (core 0 0 [(1, 0xF0F0F0F0), (2, 0xFF00FF00)]) 0x04010203) = some (0x0FF00FF0, 1, .running) := by decide

theorem test_or_A9 :
    regPcRun 3 (run1 (core 0 0 [(1, 0xF0F0F0F0), (2, 0xFF00FF00)]) 0x05010203) = some (0xFFF0FFF0, 1, .running) := by decide

theorem test_and_A10 :
    regPcRun 3 (run1 (core 0 0 [(1, 0xF0F0F0F0), (2, 0xFF00FF00)]) 0x07010203) = some (0xF000F000, 1, .running) := by decide

theorem test_mult_A15 :
    regPcRun 3 (run1 (core 0 0 [(1, 0x12345678), (2, 0x9ABCDEF0)]) 0x17010203) = some (0x242D2080, 1, .running) := by decide

theorem test_div_A16 :
    regPcRun 3 (run1 (core 0 0 [(1, 100), (2, 0), (3, 0x37)]) 0x18010203) = some (0, 1, .running) := by decide

theorem test_div_A22 :
    regPcRun 3 (run1 (core 0 0 [(1, 0xFFFFFFFE), (2, 2)]) 0x18010203) = some (0x7FFFFFFF, 1, .running) := by decide

/-- A23: under the default CMP_FN cmp stops with Refused. -/
theorem test_cmp_A23 : regPcRun 3 (run1 (core 0 0 [(1, 1), (2, 2)]) 0x19010203) =
    some (0, 0, .stopped (.refused 0 .cmp)) := by decide

/-- R158: under a CMP_FN defined at (1, 2), and not at (2, 1), cmp writes its value; the first row counts. -/
theorem test_cmp_defined :
    regPcRun 3 (run1 { core 0 0 [(1, 1), (2, 2)] with cmpFn := [⟨2, 1, some 7⟩, ⟨1, 2, some 9⟩, ⟨1, 2, none⟩] } 0x19010203) =
    some (9, 1, .running) := by decide

/-- R158: under a CMP_FN defined with no value at (1, 2) cmp completes and writes nothing. -/
theorem test_cmp_no_value :
    regPcRun 3 (run1 { core 0 0 [(1, 1), (2, 2), (3, 5)] with cmpFn := [⟨1, 2, none⟩, ⟨1, 2, some 9⟩] } 0x19010203) =
    some (5, 1, .running) := by decide

/-- A24, A25: a field of 32 in f1 or f3. -/
theorem test_register_index_A24_A25 :
    regPcRun 3 (run1 (core 0 0 [(1, 1), (2, 2)]) 0x01200203) = some (0, 0, .stopped (.registerIndexOutOfRange 0 32)) ∧
    regPcRun 3 (run1 (core 0 0 [(1, 1), (2, 2)]) 0x01010220) = some (0, 0, .stopped (.registerIndexOutOfRange 0 32)) :=
  by decide

/-! One step: one register, moves, constants, shifts -/

theorem test_inc_UC2 :
    regPcRun 1 (run1 (core 0 0 [(1, 0xFFFFFFFF)]) 0x1A000001) = some (0, 1, .running) := by decide

theorem test_inc_UC16 :
    regPcRun 1 (run1 (core 0 0 []) 0x1A202001) = some (1, 1, .running) := by decide

theorem test_dec_UC4 :
    regPcRun 1 (run1 (core 0 0 [(1, 0)]) 0x1B000001) = some (0xFFFFFFFF, 1, .running) := by decide

theorem test_zeros_UC5 :
    regPcRun 2 (run1 (core 0 0 [(2, 0xDEADBEEF)]) 0x03000002) = some (0, 1, .running) := by decide

theorem test_passnota_UC6 :
    regPcRun 3 (run1 (core 0 0 [(2, 0xABCD1234)]) 0x06020003) = some (0x5432EDCB, 1, .running) := by decide

theorem test_passa_UC9 :
    regPcRun 10 (run1 (core 0 0 [(31, 4)]) 0x0C1F000A) = some (4, 1, .running) := by decide

theorem test_lcl_UC11 :
    regPcRun 1 (run1 (core 0 0 [(1, 0xABCD0000)]) 0x0F123401) = some (0xABCD1234, 1, .running) := by decide

theorem test_lcl_UC12 :
    regPcRun 1 (run1 (core 0 0 [(1, 0x12345678)]) 0x0FFFFF01) = some (0x1234FFFF, 1, .running) := by decide

theorem test_lch_UC13 :
    regPcRun 2 (run1 (core 0 0 [(2, 0x00001234)]) 0x0EABCD02) = some (0xABCD1234, 1, .running) := by decide

theorem test_lch_UC14 :
    regPcRun 2 (run1 (core 0 0 [(2, 0xFFFFFFFF)]) 0x0E000002) = some (0x0000FFFF, 1, .running) := by decide

theorem test_asl_S1 :
    regPcRun 3 (run1 (core 0 0 [(1, 0xC0000001), (2, 7)]) 0x08010203) = some (0x80000002, 1, .running) := by decide

theorem test_lsl_S2 :
    regPcRun 3 (run1 (core 0 0 [(1, 5), (2, 4)]) 0x0A010203) = some (10, 1, .running) := by decide

theorem test_asr_S8 :
    regPcRun 3 (run1 (core 0 0 [(1, 0x80000003)]) 0x0901FF03) = some (0x40000001, 1, .running) := by decide

theorem test_lsr_S5 :
    regPcRun 3 (run1 (core 0 0 [(1, 0x80000003), (2, 31)]) 0x0B010203) = some (0x40000001, 1, .running) := by decide

/-! One step: stack, load and store, jumps -/

theorem test_push_K2 : look (fun t => (t.reg sp, t.dataWord 0, t.pc)) (run1 (core 0 0 [(1, 21), (31, 1)]) 0x1C010000) =
    some (0, 21, 1) := by decide

/-- K3: the address, the pc and the data store; x[31] is left out (U3). -/
theorem test_push_K3 : look (fun t => (t.run, t.pc, t.dmem)) (run1 (core 0 0 [(1, 7)]) 0x1C010000) =
    some (.stopped (.dataAddressOutOfRange 0xFFFFFFFF), 0, []) := by decide

theorem test_pop_K6 :
    regsPc 3 31 (run1 (withData (core 0 0 [(31, 32767)]) 32767 21) 0x1D000300) = some (21, 32768, 1) := by decide

theorem test_pop_K8 : regPcRun 31 (run1 (core 0 0 [(31, 32768), (3, 5)]) 0x1D000300) =
    some (32768, 0, .stopped (.dataAddressOutOfRange 32768)) := by decide

/-- K5, K9, K16: r31 as the explicit operand (decision D9; log 7). -/
theorem test_r31_operand_K5_K9_K16 :
    look (fun t => (t.reg sp, t.dataWord 9, t.pc)) (run1 (core 0 0 [(31, 10)]) 0x1C1F0000) = some (9, 9, 1) ∧
    regPcRun 31 (run1 (withData (core 0 0 [(31, 10)]) 10 500) 0x1D001F00) = some (501, 1, .running) ∧
    look (fun t => (t.reg sp, t.dataWord 9, t.pc)) (run1 (core 3 0 [(31, 10)]) 0x1E1F0000) = some (9, 4, 9) := by decide

theorem test_call_K17 : look (fun t => (t.reg sp, t.dataWord 199, t.pc))
    (run1 (core 19 16 [(5, 6), (31, 200)]) 0x1E050000) = some (199, 20, 6) := by decide

theorem test_call_K14 : look (fun t => (t.run, t.pc)) (run1 (core 3 0 [(5, 6)]) 0x1E050000) =
    some (.stopped (.dataAddressOutOfRange 0xFFFFFFFF), 3) := by decide

theorem test_ret_K20 : regPcRun 31 (run1 (core 16 16 [(31, 0xFFFFFFFF)]) 0x1F000000) =
    some (0xFFFFFFFF, 4294967311, .running) := by decide

theorem test_load_M2 : regPcRun 4 (run1 (withData (withData (core 16 16 [(1, 5)]) 21 77) 5 1) 0x10010004) =
    some (77, 17, .running) := by decide

theorem test_load_M5 : regPcRun 4 (run1 (core 16 16 [(1, 0xFFFFFFFF), (4, 9)]) 0x10010004) =
    some (9, 16, .stopped (.dataAddressOutOfRange 4294967311)) := by decide

theorem test_store_M8 : cellPcRun 216 (run1 (core 16 16 [(1, 200), (2, 3)]) 0x11020100) =
    some (3, 17, .running) := by decide

theorem test_store_M9 : cellPcRun 0 (run1 (core 0 0 [(1, 32768), (2, 3)]) 0x11020100) =
    some (0, 0, .stopped (.dataAddressOutOfRange 32768)) := by decide

theorem test_j_B3 : look State.pc (run1 (core 16 16 []) 0x16FFFFFF) = some 16777231 := by decide

theorem test_jal_B6 : regPcRun 31 (run1 (core 21 16 []) 0x12000006) = some (22, 22, .running) := by decide

theorem test_jr_B7b : look State.pc (run1 (core 32767 32767 [(10, 0xFFFFFFFF)]) 0x130A0000) = some 4295000062 := by
  decide

theorem test_beq_B9_B10 : look State.pc (run1 (core 3 0 [(1, 5)]) 0x14010007) = some 4 ∧
    look State.pc (run1 (core 16 16 [(1, 5)]) 0x140101FF) = some 271 := by decide

theorem test_bne_B11_B12 : look State.pc (run1 (core 6 0 [(1, 3)]) 0x15010004) = some 4 ∧
    look State.pc (run1 (core 6 0 [(1, 0)]) 0x15010004) = some 7 := by decide

/-! One step: stops (X1 to X11) -/

theorem test_halt_X1 : run1 { core 3 0 [(1, 5)] with steps := 3 } 0xFFFFFFFF =
    .next { placeAtPc (core 3 0 [(1, 5)]) 0xFFFFFFFF with steps := 4, run := .stopped (.halt 3) } := by rfl

theorem test_unloaded_cell_X3 : look (fun t => (t.run, t.pc, t.steps)) (step State.reset) =
    some (.stopped (.invalidOpcode 0 0), 0, 1) := by decide

theorem test_beyond_store_X6 : look (fun t => (t.run, t.pc, t.steps)) (step { core 32768 0 [] with steps := 9 }) =
    some (.stopped (.pcOutOfRange 32768), 32768, 10) := by decide

/-- X8: the budget is tested before the pc range. -/
theorem test_budget_X8 :
    look (fun t => (t.run, t.pc, t.steps)) (step { core 40000 0 [] with steps := 5, maxSteps := some 5 }) =
    some (.stopped (.stepBudget 5), 40000, 5) := by decide

theorem test_budget_zero_X9 : look (fun t => (t.run, t.steps)) (step { State.reset with maxSteps := some 0 }) =
    some (.stopped (.stepBudget 0), 0) := by decide

/-- X11: the last address runs; the pc past it is kept. -/
theorem test_last_address_X11 : regPcRun 1 (run1 (core 32767 32767 []) 0x1A000001) = some (1, 32768, .running) := by
  decide

/-! Loader and assembler -/

/-- The lines of image L2. -/
def imageL2 : List Line :=
  ["# demo".toList, "address 16".toList, "00001111000000000000001100000001   # lcl r1,3".toList, "".toList,
    "address 38".toList, "11111111111111111111111111111111".toList]

theorem test_loader_L2 : loadImage imageL2 = .ok { imem := [(16, 0x0F000301), (38, 0xFFFFFFFF)], base := 16 } := by
  decide

/-- L3, L4: the operand of a directive defaults to 0; BASE is the first directive's even when a line precedes it. -/
theorem test_loader_L3_L4 :
    loadImage ["address".toList, binaryText 0x1A000001] = .ok { imem := [(0, 0x1A000001)], base := 0 } ∧
    loadImage [binaryText 0x1A000001, "address 100".toList, binaryText 0xFFFFFFFF] =
      .ok { imem := [(0, 0x1A000001), (100, 0xFFFFFFFF)], base := 100 } := by decide

/-- R293: a line that starts with the word is a directive, also with its operand after a comma or right behind it. -/
theorem test_loader_starts_with :
    loadImage ["address,16".toList, binaryText 1] = .ok { imem := [(16, 1)], base := 16 } ∧
    loadImage ["address16".toList, binaryText 1] = .ok { imem := [(16, 1)], base := 16 } ∧
    loadImage ["address16 17".toList] = .error .malformedLine ∧
    loadImage ["addresses".toList] = .error .malformedLine := by decide

/-- R297: refused images. -/
theorem test_loader_refuses : loadImage ["address 32768".toList] = .error .addressOutOfRange ∧
    loadImage ["address 32767".toList, binaryText 1, binaryText 2] = .error .addressOutOfRange ∧
    loadImage ["0101".toList] = .error .malformedLine ∧ loadImage ["address x".toList] = .error .malformedLine := by
  decide

/-- P0 assembled: its binary lines as 95_test_vectors writes them. -/
theorem test_assemble_P0 : assemble defaultOpc true
      ["lcl r1,5".toList, "lcl r2,7  # seven".toList, "ADD r3, r1, r2".toList, "halt".toList] =
    .ok ["00001111000000000000010100000001".toList, "00001111000000000000011100000010".toList,
      "00000001000000010000001000000011".toList, "11111111111111111111111111111111".toList] := by decide

/-- A line of commas is dropped (log 24), and a carriage return is white space (log 23). -/
theorem test_assemble_commas_carriage_return :
    assemble defaultOpc true [" , ,".toList, ['r', 'e', 't', '\r']] = .ok [binaryText 0x1F000000] := by decide

/-- R105 (either value of the parameter), R107 (the line of the first error). -/
theorem test_assemble_errors :
    assemble defaultOpc false ["lcl r1, 65541".toList] = assemble defaultOpc false ["lcl r1, 5".toList] ∧
    assemble defaultOpc true ["lcl r1, 65541".toList] = .error (1, .operandOutOfRange) ∧
    assemble defaultOpc true ["halt".toList, "nop".toList] = .error (2, .unknownMnemonic) ∧
    assemble defaultOpc true ["add r1, r2".toList] = .error (1, .invalidOperandCount) ∧
    assemble defaultOpc true ["address".toList] = .error (1, .invalidAddressDirective) ∧
    assemble defaultOpc true ["inc r32".toList] = .error (1, .malformedOperand) := by decide

/-! Witnesses: for each statement with hypotheses, data that meet them; several where it has several clauses -/

/-- The default map meets what the statements ask of an opcode map. -/
theorem test_witness_admissible : OpcodeMap.Admissible defaultOpc := by
  refine ⟨?_, by decide⟩
  have h : ∀ m ∈ Mnemonic.all, ∀ n ∈ Mnemonic.all, defaultOpc m = defaultOpc n → m = n := by decide
  intro m n
  exact h m (by cases m <;> decide) n (by cases n <;> decide)

/-- DecodesAs: a word of each opcode. -/
theorem test_witness_DecodesAs : ∀ m ∈ Mnemonic.all, opcodeField (packWord (defaultOpc m) 1 2 3) = defaultOpc m := by
  decide

/-- A core about to run add r3,r1,r2, with a budget it has not spent. -/
def adding : State := { placeAtPc (core 0 0 [(1, 5), (2, 7)]) 0x01010203 with maxSteps := some 1 }

theorem test_witness_StepRunsTheDecodedInstruction : adding.run = .running ∧ adding.maxSteps ≠ some adding.steps ∧
    adding.pc ≤ 32767 ∧ decodeWith defaultOpc (adding.instrWord adding.pc) = .ok (.add 3 1 2) := by decide

/-- The same core after its step: budget spent. -/
def spent : State := { adding with steps := 1 }

theorem test_witness_SpentBudgetStopsFirst : (spent.run = .running ∧ spent.maxSteps = some spent.steps) ∧
    adding.maxSteps ≠ some adding.steps ∧ (look State.pc (stepWith defaultOpc adding)).isSome = true := by decide

/-- The first pc beyond the store. -/
def beyond : State := core 32768 0 []

theorem test_witness_FetchBeyondTheStoreStops : beyond.run = .running ∧ beyond.maxSteps ≠ some beyond.steps ∧
    32767 < beyond.pc := by decide

/-- An unmapped opcode at the last address a fetch reaches. -/
def unmapped : State := placeAtPc (core 32767 0 []) 0x0D010203

theorem test_witness_UnmappedOpcodeStops : unmapped.run = .running ∧ unmapped.maxSteps ≠ some unmapped.steps ∧
    unmapped.pc ≤ 32767 ∧ ∀ m, defaultOpc m ≠ opcodeField (unmapped.instrWord unmapped.pc) := by
  refine ⟨by decide, by decide, by decide, ?_⟩
  intro m
  cases m <;> decide

/-- A core about to halt at the last address. -/
def halting : State := placeAtPc (core 32767 0 []) 0xFFFFFFFF

theorem test_witness_HaltStopsTheRun : halting.run = .running ∧ halting.maxSteps ≠ some halting.steps ∧
    halting.pc ≤ 32767 ∧ decodeWith defaultOpc (halting.instrWord halting.pc) = .ok .halt := by decide

/-- A core stopped by halt. -/
def halted : State := { core 3 0 [] with run := .stopped (.halt 3), steps := 4 }

theorem test_witness_StoppedCoreTakesNoStep : halted.run = .stopped (.halt 3) := by decide

/-- OffendingFieldStopsTheRun and ChecksOperands: a field at either end of 32..255, in each register operand. -/
theorem test_witness_ChecksOperands :
    Instr.offendingField (.cmp 3 1 32) = some 32 ∧ Instr.offendingField (.cmp 255 1 2) = some 255 ∧
    Instr.offendingField (.load 32 1) = some 32 ∧ Instr.offendingField (.load 1 255) = some 255 ∧
    Instr.offendingField (.store 1 32) = some 32 ∧ Instr.offendingField (.push 32) = some 32 ∧
    Instr.offendingField (.pop 32) = some 32 ∧ Instr.offendingField (.call 255) = some 255 ∧
    Instr.offendingField (.jr 32) = some 32 ∧ Instr.offendingField (.beq 1 32 0) = some 32 ∧
    Instr.offendingField (.bne 32 1 0) = some 32 := by decide

/-- The outcome is a next state. -/
def answers (o : Out) : Bool := (look State.pc o).isSome

theorem test_witness_WellFormedNeverOffends : Instr.wellFormed (.asr 31 0 255) = true ∧ adding.run = .running ∧
    answers (exec (.asr 31 0 255) adding) = true := by decide

/-- Clause 1: add goes on; clause 2: push with x[31] = 0 stops. -/
theorem test_witness_PcAdvancesOutsideBranchJump : adding.run = .running ∧
    look State.run (exec (.add 3 1 2) adding) = some .running ∧
    categoryOf (Instr.mnemonic (.add 3 1 2)) ≠ some .branchJump ∧
    look State.run (exec (.push 1) adding) = some (.stopped (.dataAddressOutOfRange 0xFFFFFFFF)) := by decide

/-- Clause 1: load; both clauses: add. -/
theorem test_witness_DataStoreTouchedByFiveInstructions :
    answers (exec (.load 3 1) adding) = true ∧ Mnemonic.load ∉ [Mnemonic.store, .push, .call] ∧
    answers (exec (.add 3 1 2) adding) = true ∧ Mnemonic.add ∉ [Mnemonic.load, .pop, .store, .push, .call] := by decide

theorem test_witness_OnlyNamedRegistersChange : answers (exec (.pop 3) adding) = true ∧
    (30 : Reg).val ∉ writtenRegs (.pop 3) := by decide

/-- Two cores that differ in the register add writes and in one it does not name. -/
theorem test_witness_ResultDependsOnReadRegistersOnly :
    let s' := (adding.setReg 3 99).setReg 7 100
    (∀ r : Reg, r.val ∈ readRegs (.add 3 1 2) → s'.reg r = adding.reg r) ∧ s' ≠ adding ∧ s'.pc = adding.pc ∧
    s'.base = adding.base ∧ s'.run = adding.run ∧ s'.dmem = adding.dmem ∧ s'.cmpFn = adding.cmpFn ∧
    adding.run = .running ∧ answers (exec (.add 3 1 2) adding) = true ∧ answers (exec (.add 3 1 2) s') = true := by decide

/-- NoStepChangesTheInstructionStore, StepsCountTheStepsBegun (each of its cases). -/
theorem test_witness_step_answers : answers (stepWith defaultOpc adding) = true ∧
    answers (stepWith defaultOpc spent) = true := by decide

/-- A halting step, and one that stops in push. -/
theorem test_witness_StopsArePrecise :
    look State.run (stepWith defaultOpc (placeAtPc (core 3 0 []) 0xFFFFFFFF)) = some (.stopped (.halt 3)) ∧
    look State.run (stepWith defaultOpc (placeAtPc (core 3 0 []) 0x1C010000)) =
      some (.stopped (.dataAddressOutOfRange 0xFFFFFFFF)) := by decide

theorem test_witness_InvariantKeptByEveryStep : adding.Inv ∧ answers (stepWith defaultOpc adding) = true := by
  refine ⟨⟨by decide, by decide, by decide, ?_, ?_⟩, by decide⟩
  · intro n h; cases h; decide
  · intro c h
    rw [show adding.run = .running by decide] at h
    cases h

theorem test_witness_BootedMachineHasTheInvariant : ∃ s, boot imageL2 (some 7) = .ok s := ⟨_, rfl⟩

/-- Budget not begun, and budget just spent. -/
theorem test_witness_EveryBudgetedRunStops :
    (adding.run = .running ∧ adding.maxSteps = some 1 ∧ adding.steps ≤ 1) ∧
    (spent.run = .running ∧ spent.maxSteps = some 1 ∧ spent.steps ≤ 1) := by decide

theorem test_witness_CanonicalStoresAreEqualData :
    Memory.wf [(0, 5), (32767, 1)] = true ∧ Memory.wf (Memory.write [(32767, 1)] 0 5) = true ∧
    ∀ a, Memory.read [(0, 5), (32767, 1)] a = Memory.read (Memory.write [(32767, 1)] 0 5) a :=
  ⟨by decide, by decide, fun _ => rfl⟩

/-- A row with a value, and one without, after one that does not match; no row for the operands in this order. -/
theorem test_witness_CmpFollowsItsParameter :
    let pre : CmpFn := [⟨7, 5, some 1⟩]
    (pre ++ [⟨5, 7, some 2⟩, ⟨5, 7, none⟩] = pre ++ ⟨adding.reg 1, adding.reg 2, some 2⟩ :: [⟨5, 7, none⟩]) ∧
    (pre ++ [⟨5, 7, none⟩] = pre ++ ⟨adding.reg 1, adding.reg 2, none⟩ :: []) ∧
    ∀ e ∈ pre, ¬ (e.a = adding.reg 1 ∧ e.b = adding.reg 2) := by decide

/-- The last address inside and the first outside, with BASE not 0. -/
theorem test_witness_LoadReadsBasePlusRegister :
    (core 16 16 [(1, 32751)]).base.val + ((core 16 16 [(1, 32751)]).reg 1).toNat = 32767 ∧
    (core 16 16 [(1, 32752)]).base.val + ((core 16 16 [(1, 32752)]).reg 1).toNat = 32768 := by decide

/-- StoreWritesBasePlusRegister (both clauses), LoadSeesThePrecedingStore (the first). -/
theorem test_witness_StoreWritesBasePlusRegister :
    ((core 16 16 [(1, 32751)]).dmem.wf = true ∧ basePlusReg (core 16 16 [(1, 32751)]) 1 = 32767) ∧
    ((core 16 16 [(1, 32752)]).dmem.wf = true ∧ basePlusReg (core 16 16 [(1, 32752)]) 1 = 32768) := by decide

/-- PushStoresBelowTheStackTop, CallPushesTheReturnAddress: both ends of the valid range, and the values next to them. -/
theorem test_witness_push_call : (core 32767 0 [(31, 1)]).dmem.wf = true ∧ (core 32767 0 [(31, 1)]).pc ≤ 32767 ∧
    ((core 32767 0 [(31, 1)]).reg sp).toNat = 1 ∧ ((core 32767 0 [(31, 32768)]).reg sp).toNat = 32768 ∧
    (core 32767 0 [(31, 0)]).reg sp = 0 ∧ 32768 < ((core 32767 0 [(31, 32769)]).reg sp).toNat := by decide

theorem test_witness_PopLoadsTheStackTop : ((core 0 0 [(31, 32767)]).reg sp).toNat ≤ 32767 ∧
    32767 < ((core 0 0 [(31, 32768)]).reg sp).toNat ∧ (3 : Reg) ≠ sp := by decide

theorem test_witness_PopUndoesPush : (core 0 0 [(31, 1)]).dmem.wf = true ∧ (1 : Reg) ≠ sp ∧ (2 : Reg) ≠ sp ∧
    1 ≤ ((core 0 0 [(31, 1)]).reg sp).toNat ∧ ((core 0 0 [(31, 1)]).reg sp).toNat ≤ 32768 := by decide

/-- JumpsAddBase: jal at the last address. -/
theorem test_witness_JumpsAddBase : (core 32767 0 []).pc ≤ 32767 := by decide

/-- No line, and as many lines as the store has words. -/
theorem test_witness_ImageWithoutDirectiveLoadsAtZero : ([] : List Word).length ≤ 32768 ∧
    (List.replicate 32768 (1 : Word)).length ≤ 32768 :=
  ⟨by decide, Nat.le_of_eq List.length_replicate⟩

/-- RetIsJrR31: a register other than r31 that holds the same, and r31 itself. -/
theorem test_witness_RetIsJrR31 : (core 0 0 [(5, 9), (31, 9)]).reg 5 = (core 0 0 [(5, 9), (31, 9)]).reg sp ∧
    (core 0 0 []).reg sp = (core 0 0 []).reg sp := by decide

/-- Blocks of each form: no operand, the operand after a gap, right behind the word, at the last address. -/
theorem test_witness_ImageDirectivesPlaceTheirLines : ([1, 2] : List Word).length ≤ 32768 ∧
    (⟨[' ', ','], ['1', '6'], 16, [3, 4]⟩ : ImageBlock).Proper ∧ (⟨[], [], 0, [5]⟩ : ImageBlock).Proper ∧
    (⟨[], ['7'], 7, []⟩ : ImageBlock).Proper ∧ (⟨[' '], "32767".toList, 32767, [6]⟩ : ImageBlock).Proper :=
  ⟨by decide, ⟨by simp [isSeparator, isBlank], .inr (by decide), by decide, by decide⟩,
    ⟨by simp, .inl ⟨rfl, rfl⟩, by decide, by decide⟩, ⟨by simp, .inr (by decide), by decide, by decide⟩,
    by simp [isSeparator, isBlank], .inr (by decide), by decide, by decide⟩

theorem test_witness_HostObservesAfterAStop : adding.run = .running ∧ halted.run = .stopped (.halt 3) := by decide

end Sys2Proof.Machine.Tests
end

/-! Result shapes: when a decode, a write-back, a jump and the operand check are of the shape the statements name. -/

namespace Sys2Proof.Machine

/-- The decoder gives the instruction its mnemonic makes of the word's fields, under every admissible map (R92). -/
theorem decodesAs_of_instrOf {m : Mnemonic} {g : Field8 → Field8 → Field8 → Instr}
    (h : ∀ w, instrOf m w = g (field1 w) (field2 w) (field3 w)) : DecodesAs m g := fun _opc hopc w hw =>
  (decodeWith_of_opcode hopc hw).trans (congrArg Except.ok (h w))

theorem setReg_regsKept (s : State) (i : Reg) (v : Word) : RegsKept s (s.setReg i v) [i] := fun _r hr =>
  State.setReg_reg_ne s v (List.ne_of_not_mem_cons hr)

theorem setReg_dataKept (s : State) (i : Reg) (v : Word) : DataKept s (s.setReg i v) := State.setReg_dataWord s i v

theorem setReg_controlKept (s : State) (i : Reg) (v : Word) : ControlKept s (s.setReg i v) :=
  ⟨⟨State.setReg_imem s i v, State.setReg_base s i v, State.setReg_maxSteps s i v, State.setReg_cmpFn s i v⟩,
    State.setReg_steps s i v, State.setReg_run s i v⟩

/-- A write-back changes its register and pc and nothing else (R129, R130). -/
theorem writeBack_registerResult {s : State} {c : Reg} {v : Word} {P : Word → Prop} (hv : P v) :
    RegisterResult (writeBack c v s) s c P :=
  ⟨(s.setReg c v).advance, rfl, (State.setReg_reg_same s c v).symm ▸ hv, rfl, setReg_regsKept s c v,
    setReg_dataKept s c v, setReg_controlKept s c v⟩

/-- A pc update changes pc and nothing else (R130). -/
theorem setPc_jumpResult (s : State) (target : Nat) : JumpResult (.next (s.setPc target)) s target :=
  ⟨s.setPc target, rfl, State.setPc_pc s target, fun r _ => State.setPc_reg s target r, State.setPc_dataWord s target,
    ⟨State.setPc_imem s target, State.setPc_base s target, State.setPc_maxSteps s target,
      State.setPc_cmpFn s target⟩,
    State.setPc_steps s target, State.setPc_run s target⟩

theorem raise_stopsAsIs (s : State) (c : Cause) : StopsAsIs (raise s c) s c := rfl

/-- One register operand of the operand check (R127): the first offending field of f and the fields after it is reported
if the meaning after f reports the first offending one of those. -/
theorem withReg_stopsAsIs {f g : Field8} {fs : List Field8} {s : State} {k : Reg → Out}
    (h : (f :: fs).find? (fun f => !Field8.namesReg f) = some g)
    (hk : ∀ r, fs.find? (fun f => !Field8.namesReg f) = some g →
      StopsAsIs (k r) s (.registerIndexOutOfRange s.pc g.toNat)) :
    StopsAsIs (withReg f s k) s (.registerIndexOutOfRange s.pc g.toNat) := by
  obtain ⟨r, rfl, hr⟩ | ⟨hf, hr⟩ := withReg_cases f s k
  · rw [hr]
    exact hk r (by simpa using h)
  · obtain rfl : f = g := by simpa [namesReg_out hf] using h
    rw [hr]
    exact raise_stopsAsIs s _

/-- Settles O30: the read-back law of `setReg`, and its frame. -/
theorem registerWriteIsReadBack : Obligations.RegisterWriteIsReadBack := fun s i v =>
  ⟨State.setReg_reg_same s i v, setReg_regsKept s i v, State.setReg_pc s i v, setReg_dataKept s i v,
    setReg_controlKept s i v⟩

end Sys2Proof.Machine

/-! cmp under its parameter CMP_FN (R158, R265). -/

namespace Sys2Proof.Machine

/-- The first row for the operands decides. -/
theorem cmpLookup_first_row {pre post : CmpFn} {a b : Word} {v : Option Word}
    (hpre : ∀ e ∈ pre, ¬ (e.a = a ∧ e.b = b)) : cmpLookup (pre ++ ⟨a, b, v⟩ :: post) a b = some v := by
  have hskip : pre.find? (fun e => e.a == a && e.b == b) = none := by simpa [List.find?_eq_none] using hpre
  simp [cmpLookup, List.find?_append, hskip]

theorem cmpLookup_eq_none_iff {fn : CmpFn} {a b : Word} :
    cmpLookup fn a b = none ↔ ∀ e ∈ fn, ¬ (e.a = a ∧ e.b = b) := by
  simp [cmpLookup, List.find?_eq_none]

section
variable {s : State} {c a b : Reg}

theorem exec_cmp_value {w : Word} (h : cmpLookup s.cmpFn (s.reg a) (s.reg b) = some (some w)) :
    exec (.cmp (regField c) (regField a) (regField b)) s = writeBack c w s := by
  simp only [exec, execCmp, withReg_regField, h]

theorem exec_cmp_noValue (h : cmpLookup s.cmpFn (s.reg a) (s.reg b) = some none) :
    exec (.cmp (regField c) (regField a) (regField b)) s = .next s.advance := by
  simp only [exec, execCmp, withReg_regField, h]

theorem exec_cmp_undefined (h : cmpLookup s.cmpFn (s.reg a) (s.reg b) = none) :
    exec (.cmp (regField c) (regField a) (regField b)) s = raise s (.refused s.pc .cmp) := by
  simp only [exec, execCmp, withReg_regField, h]

end

/-- cmp checks its operands in the order f1, f2, f3 (R127). -/
theorem cmp_checksOperands (rc ra rb : Field8) : ChecksOperands (.cmp rc ra rb) := by
  intro s f h
  simp only [exec, execCmp]
  exact withReg_stopsAsIs h fun _a h => withReg_stopsAsIs h fun _b h => withReg_stopsAsIs h fun _c h => nomatch h

/-- Settles O34, by what CMP_FN's table holds for the operands: a value, no value, or no row. -/
theorem cmpFollowsItsParameter : Obligations.CmpFollowsItsParameter := by
  refine ⟨decodesAs_of_instrOf fun _ => rfl, cmp_checksOperands, fun c a b s => ⟨?_, ?_⟩⟩
  · intro pre post v hfn hpre
    have hrow : cmpLookup s.cmpFn (s.reg a) (s.reg b) = some v := hfn ▸ cmpLookup_first_row hpre
    constructor
    · rintro w rfl
      rw [exec_cmp_value hrow]
      exact writeBack_registerResult rfl
    · rintro rfl
      rw [exec_cmp_noValue hrow]
      exact setPc_jumpResult s (s.pc + 1)
  · intro hno
    rw [exec_cmp_undefined (cmpLookup_eq_none_iff.mpr hno)]
    exact raise_stopsAsIs s _

end Sys2Proof.Machine

/-! The invariant over a step: what an effect keeps, field by field, and then the invariant (R26, R51, R52,
R121, R260). -/

namespace Sys2Proof.Machine

section decIncSpFields
variable (s : State)

@[simp] theorem decSp_pc : (decSp s).pc = s.pc := rfl
@[simp] theorem decSp_dmem : (decSp s).dmem = s.dmem := rfl
@[simp] theorem decSp_run : (decSp s).run = s.run := rfl
@[simp] theorem decSp_dataWord (a : Nat) : (decSp s).dataWord a = s.dataWord a := rfl
@[simp] theorem incSp_pc : (incSp s).pc = s.pc := rfl
@[simp] theorem incSp_dmem : (incSp s).dmem = s.dmem := rfl
@[simp] theorem incSp_run : (incSp s).run = s.run := rfl
@[simp] theorem incSp_dataWord (a : Nat) : (incSp s).dataWord a = s.dataWord a := rfl

theorem decSp_reg_ne {r : Reg} (h : r ≠ sp) : (decSp s).reg r = s.reg r := State.setReg_reg_ne s _ h

theorem incSp_reg_ne {r : Reg} (h : r ≠ sp) : (incSp s).reg r = s.reg r := State.setReg_reg_ne s _ h

end decIncSpFields

namespace Effect
variable {i : Instr} {s t : State}

/-- No instruction changes the launch state. -/
theorem launchKept (h : Effect i s t) : LaunchKept s t := by
  cases h <;> exact ⟨rfl, rfl, rfl, rfl⟩

/-- The step is counted before its instruction runs, and the instruction counts nothing. -/
theorem steps_eq (h : Effect i s t) : t.steps = s.steps := by cases h <;> rfl

theorem dmem_wf (h : Effect i s t) (hs : s.dmem.wf = true) : t.dmem.wf = true := by
  cases h with
  | store a b ha => exact Memory.write_wf hs ha _
  | push a ha => exact Memory.write_wf hs ha _
  | call a ha => exact Memory.write_wf hs ha _
  | _ => exact hs

/-- From an address a fetch reaches, pc goes to T or T + 1, to a register's value, or to BASE plus a 32-bit offset. -/
theorem pc_le (h : Effect i s t) (hs : s.pc < storeWords) : t.pc ≤ 0x100007FFE := by
  have hbase : s.base.val < 32768 := s.base.isLt
  have hpc : s.pc < 32768 := hs
  cases h with
  | call a ha =>
    have htarget := ((decSp s).reg a).isLt
    simp only [State.setPc_pc]; omega
  | jal addr =>
    have haddr := addr.isLt
    simp only [State.setPc_pc, basePlusAddr]; omega
  | jump off hoff hi => simp only [State.setPc_pc]; omega
  | _ =>
    simp only [State.stop_pc, State.advance_pc, State.setReg_pc, State.setDmem_pc, decSp_pc, incSp_pc]
    omega

/-- What an instruction records when it stops is true of the state it leaves. -/
theorem stop_agrees (h : Effect i s t) (hs : s.run = .running) {c : Cause} (ht : t.run = .stopped c) : c.Agrees t := by
  cases h with
  | operandStop hoff hf => cases ht; exact ⟨rfl, hf, BitVec.isLt _⟩
  | refuse => cases ht; exact ⟨rfl, rfl⟩
  | halt => cases ht; exact rfl
  | dataStop hm hea => cases ht; exact hea
  | stackStop hm hea => cases ht; exact hea
  | _ => exact nomatch hs.symm.trans ht

theorem inv (h : Effect i s t) (hs : s.Inv) (hrun : s.run = .running) (hpc : s.pc < storeWords) : t.Inv := by
  obtain ⟨himem, -, hmax, -⟩ := h.launchKept
  exact { imem_wf := himem ▸ hs.imem_wf
          dmem_wf := h.dmem_wf hs.dmem_wf
          pc_le := h.pc_le hpc
          steps_le := by rw [hmax, h.steps_eq]; exact hs.steps_le
          stop_agrees := fun _ => h.stop_agrees hrun }

end Effect

/-- A stop whose record is true of the state it leaves keeps the invariant. -/
theorem State.Inv.stop {s : State} {c : Cause} (hs : s.Inv) (hc : c.Agrees (s.stop c)) : (s.stop c).Inv where
  imem_wf := hs.imem_wf
  dmem_wf := hs.dmem_wf
  pc_le := hs.pc_le
  steps_le := hs.steps_le
  stop_agrees := by rintro _ ⟨⟩; exact hc

/-- Counting a step within the budget keeps the invariant of a running state. -/
theorem State.Inv.count {s : State} (hs : s.Inv) (hrun : s.run = .running) (hb : s.maxSteps ≠ some s.steps) :
    (s.setSteps (s.steps + 1)).Inv where
  imem_wf := hs.imem_wf
  dmem_wf := hs.dmem_wf
  pc_le := hs.pc_le
  steps_le := by
    intro n hn
    have hle := hs.steps_le n hn
    have hne : s.steps ≠ n := fun e => hb (e ▸ hn)
    simp only [State.setSteps_steps]; omega
  stop_agrees := fun _ h => nomatch hrun.symm.trans h

/-- Settles O24, stage by stage of the step (`cycle_next`); the meaning's part is `Effect.inv`. -/
theorem invariantKeptByEveryStep : Obligations.InvariantKeptByEveryStep := by
  intro opc s t hs h
  obtain ⟨hrun, ⟨hb, rfl⟩ | ⟨hb, hpc, rfl⟩ | ⟨hb, -, -, rfl⟩ | ⟨hb, hpc, i, -, hi⟩⟩ := cycle_next h
  · exact hs.stop ⟨rfl, hb⟩
  · exact (hs.count hrun hb).stop ⟨rfl, hpc⟩
  · exact (hs.count hrun hb).stop ⟨rfl, rfl⟩
  · exact (exec_effect hi).inv (hs.count hrun hb) hrun hpc

/-- Settles O22: every stage after the budget check runs with the step counted. -/
theorem stepsCountTheStepsBegun : Obligations.StepsCountTheStepsBegun := by
  intro opc s t h
  obtain ⟨-, ⟨hb, rfl⟩ | ⟨hb, -, rfl⟩ | ⟨hb, -, -, rfl⟩ | ⟨hb, -, i, -, hi⟩⟩ := cycle_next h
  · exact .inr ⟨hb, rfl, rfl⟩
  · exact .inl ⟨hb, rfl⟩
  · exact .inl ⟨hb, rfl⟩
  · exact .inl ⟨hb, (exec_effect hi).steps_eq⟩

/-- Settles O13: the precondition of a step fails (R132). -/
theorem stoppedCoreTakesNoStep : Obligations.StoppedCoreTakesNoStep := by
  intro opc s c h
  simp only [stepWith, cycle, whileRunning, h]

end Sys2Proof.Machine

/-! Reset (R38, R290). -/

namespace Sys2Proof.Machine

/-- Every register is 0 after a launch. -/
@[simp] theorem launch_reg (p : Launch) (r : Reg) : (State.launch p).reg r = 0 := by
  simp [State.launch, Vector.get_eq_getElem]

/-- A launched machine has the invariant if its image is canonical. -/
theorem launch_inv {p : Launch} (h : p.imem.wf = true) : (State.launch p).Inv where
  imem_wf := h
  dmem_wf := Memory.wf_empty
  pc_le := by
    have hbase : p.base.val < 32768 := p.base.isLt
    simp only [State.launch]; omega
  steps_le := fun n _ => Nat.zero_le n
  stop_agrees := fun _ h => nomatch h

/-- `State.reset` is the launch with no image (log 17). -/
theorem reset_eq_launch : State.reset = State.launch { imem := [], base := 0, maxSteps := none, cmpFn := [] } := rfl

/-- Settles O25: reset is a launch, and the empty image is canonical. -/
theorem resetHasTheInvariant : Obligations.ResetHasTheInvariant := by
  unfold Obligations.ResetHasTheInvariant
  rw [reset_eq_launch]
  exact launch_inv Memory.wf_empty

/-- Settles O27: the registers by `launch_reg`, the other fields as `State.launch` sets them. -/
theorem resetState : Obligations.ResetState :=
  ⟨fun p r _ => ⟨launch_reg p r, rfl, rfl, rfl, rfl, rfl, rfl, rfl⟩, reset_eq_launch, fun _ => rfl⟩

end Sys2Proof.Machine

/-! Which registers and cells an instruction can change (R22, R23, R30). -/

namespace Sys2Proof.Machine

/-- A register whose number is not listed is another register than one whose number is. -/
theorem reg_ne_of_not_mem {r c : Reg} {l : List Nat} (hr : r.val ∉ l) (hc : c.val ∈ l) : r ≠ c :=
  fun e => hr (e ▸ hc)

/-- The implicit x[31] of push and call (R22). -/
theorem sp_mem_writtenRegs {i : Instr} (h : i.mnemonic = .push ∨ i.mnemonic = .call) : sp.val ∈ writtenRegs i := by
  cases i with
  | push ra | call ra => exact List.mem_cons_self
  | _ => simp [Instr.mnemonic] at h

/-- Settles O19, by the shapes of effect: each writes registers of the column only. -/
theorem onlyNamedRegistersChange : Obligations.OnlyNamedRegistersChange := by
  intro i s t h r hr
  cases exec_effect h with
  | stackStop hm hea => exact decSp_reg_ne s (reg_ne_of_not_mem hr (sp_mem_writtenRegs hm))
  | register c v hc => exact State.setReg_reg_ne s v (reg_ne_of_not_mem hr hc)
  | push a ha => exact decSp_reg_ne s (reg_ne_of_not_mem hr (sp_mem_writtenRegs (.inl rfl)))
  | call a ha => exact decSp_reg_ne s (reg_ne_of_not_mem hr (sp_mem_writtenRegs (.inr rfl)))
  | jal addr => exact State.setReg_reg_ne s _ (reg_ne_of_not_mem hr (by simp [writtenRegs]))
  | pop c ha =>
    have hsp : r ≠ sp := reg_ne_of_not_mem hr (by simp [writtenRegs])
    have hc : r ≠ c := reg_ne_of_not_mem hr (by simp [writtenRegs, regField_toNat])
    exact (incSp_reg_ne _ hsp).trans (State.setReg_reg_ne s _ hc)
  | _ => rfl

/-- Only store, push and call write the data store. -/
theorem Effect.dmem_eq {i : Instr} {s t : State} (h : Effect i s t)
    (hi : i.mnemonic ∉ [Mnemonic.store, .push, .call]) : t.dmem = s.dmem := by
  cases h with
  | store a b ha | push a ha | call a ha => simp [Instr.mnemonic] at hi
  | _ => rfl

end Sys2Proof.Machine

/-! Two runs of one instruction side by side: a relation between the next states holds if it holds of each pair of ends
the shared operations can come to. -/

namespace Sys2Proof.Machine

/-- Both outcomes are next states, and R holds of them. -/
inductive Related (R : State → State → Prop) : Out → Out → Prop where
  | next {t t' : State} (h : R t t') : Related R (.next t) (.next t')

theorem Related.exists_next {R : State → State → Prop} {o o' : Out} {t : State} (h : Related R o o')
    (ho : o = .next t) : ∃ t', o' = .next t' ∧ R t t' := by
  subst ho
  cases h with
  | next h => exact ⟨_, rfl, h⟩

section
variable {R : State → State → Prop} {s s' : State}

theorem withReg_related {f : Field8} {k k' : Reg → Out} (hpc : s'.pc = s.pc) (hstop : ∀ c, R (s.stop c) (s'.stop c))
    (hk : ∀ r, f = regField r → Related R (k r) (k' r)) : Related R (withReg f s k) (withReg f s' k') := by
  by_cases hf : f.toNat < 32
  · obtain ⟨r, rfl⟩ := exists_regField hf
    rw [withReg_regField, withReg_regField]
    exact hk r rfl
  · rw [withReg_out hf, withReg_out hf, hpc]
    exact .next (hstop _)

theorem memRead_related {a a' : Nat} {k k' : Word → Out} (ha : a' = a) (hstop : ∀ c, R (s.stop c) (s'.stop c))
    (hk : Related R (k (s.dataWord a)) (k' (s'.dataWord a))) : Related R (memRead a s k) (memRead a' s' k') := by
  subst ha
  by_cases hin : a' < storeWords
  · rwa [memRead_in hin, memRead_in hin]
  · rw [memRead_out (Nat.le_of_not_lt hin), memRead_out (Nat.le_of_not_lt hin)]
    exact .next (hstop _)

theorem memWrite_related {a a' : Nat} {v v' : Word} {k k' : State → Out} (ha : a' = a)
    (hstop : ∀ c, R (s.stop c) (s'.stop c))
    (hk : Related R (k (s.setDmem (s.dmem.write a v))) (k' (s'.setDmem (s'.dmem.write a v')))) :
    Related R (memWrite a v s k) (memWrite a' v' s' k') := by
  subst ha
  by_cases hin : a' < storeWords
  · rwa [memWrite_in hin, memWrite_in hin]
  · rw [memWrite_out (Nat.le_of_not_lt hin), memWrite_out (Nat.le_of_not_lt hin)]
    exact .next (hstop _)

theorem binaryAlu_related {op : Word → Word → Word} {rc ra rb : Field8} (hpc : s'.pc = s.pc)
    (hstop : ∀ c, R (s.stop c) (s'.stop c))
    (hk : ∀ a b c, ra = regField a → rb = regField b → rc = regField c →
      R (s.setReg c (op (s.reg a) (s.reg b))).advance (s'.setReg c (op (s'.reg a) (s'.reg b))).advance) :
    Related R (binaryAlu op rc ra rb s) (binaryAlu op rc ra rb s') :=
  withReg_related hpc hstop fun a ha => withReg_related hpc hstop fun b hb => withReg_related hpc hstop fun c hc =>
    .next (hk a b c ha hb hc)

theorem updateReg_related {op : Word → Word} {rc : Field8} (hpc : s'.pc = s.pc)
    (hstop : ∀ c, R (s.stop c) (s'.stop c))
    (hk : ∀ c, rc = regField c → R (s.setReg c (op (s.reg c))).advance (s'.setReg c (op (s'.reg c))).advance) :
    Related R (updateReg op rc s) (updateReg op rc s') :=
  withReg_related hpc hstop fun c hc => .next (hk c hc)

theorem moveReg_related {op : Word → Word} {rc ra : Field8} (hpc : s'.pc = s.pc)
    (hstop : ∀ c, R (s.stop c) (s'.stop c))
    (hk : ∀ a c, ra = regField a → rc = regField c →
      R (s.setReg c (op (s.reg a))).advance (s'.setReg c (op (s'.reg a))).advance) :
    Related R (moveReg op rc ra s) (moveReg op rc ra s') :=
  withReg_related hpc hstop fun a ha => withReg_related hpc hstop fun c hc => .next (hk a c ha hc)

/-- cmp in two states with the same CMP_FN and operands: a value, no value, or Refused in both. -/
theorem execCmp_related {rc ra rb : Field8} (hpc : s'.pc = s.pc) (hstop : ∀ c, R (s.stop c) (s'.stop c))
    (hfn : s'.cmpFn = s.cmpFn) (hra : ∀ a, ra = regField a → s'.reg a = s.reg a)
    (hrb : ∀ b, rb = regField b → s'.reg b = s.reg b) (hnone : R s.advance s'.advance)
    (hk : ∀ c v, rc = regField c → R (s.setReg c v).advance (s'.setReg c v).advance) :
    Related R (execCmp rc ra rb s) (execCmp rc ra rb s') :=
  withReg_related hpc hstop fun a ha => withReg_related hpc hstop fun b hb => withReg_related hpc hstop fun c hc => by
    rw [hfn, hra a ha, hrb b hb, hpc]
    split
    · exact .next (hk c _ hc)
    · exact .next hnone
    · exact .next (hstop _)

theorem execJr_related {ra : Field8} (hpc : s'.pc = s.pc) (hstop : ∀ c, R (s.stop c) (s'.stop c))
    (hk : ∀ a, ra = regField a → R (s.setPc (basePlusReg s a)) (s'.setPc (basePlusReg s' a))) :
    Related R (execJr ra s) (execJr ra s') :=
  withReg_related hpc hstop fun a ha => .next (hk a ha)

/-- The two targets of a branch on any condition of two registers. -/
theorem branch_related {cond : Bool → Bool} {ra rb addr8 : Field8} (hpc : s'.pc = s.pc)
    (hstop : ∀ c, R (s.stop c) (s'.stop c)) (hra : ∀ a, ra = regField a → s'.reg a = s.reg a)
    (hrb : ∀ b, rb = regField b → s'.reg b = s.reg b)
    (htaken : R (s.setPc (basePlusAddr s addr8)) (s'.setPc (basePlusAddr s' addr8))) (hnext : R s.advance s'.advance) :
    Related R
      (withReg ra s fun a => withReg rb s fun b => branchIf (cond (regsEqual s a b)) addr8 s)
      (withReg ra s' fun a => withReg rb s' fun b => branchIf (cond (regsEqual s' a b)) addr8 s') :=
  withReg_related hpc hstop fun a ha => withReg_related hpc hstop fun b hb => by
    rw [show regsEqual s' a b = regsEqual s a b by rw [regsEqual, hra a ha, hrb b hb, regsEqual]]
    cases h : cond (regsEqual s a b) with
    | true => exact .next htaken
    | false => exact .next hnext

end

end Sys2Proof.Machine

/-! An instruction that does not touch the data store runs alike over any (R30). -/

namespace Sys2Proof.Machine

/-- t' is t with the data store m. -/
def DmemReplaced (m : Memory) (t t' : State) : Prop := t' = t.setDmem m

/-- Replacing the data store commutes with every instruction but the five that touch it. -/
theorem exec_setDmem {i : Instr} (s : State) (m : Memory)
    (hi : i.mnemonic ∉ [Mnemonic.load, .pop, .store, .push, .call]) :
    Related (DmemReplaced m) (exec i s) (exec i (s.setDmem m)) := by
  have hstop : ∀ c, DmemReplaced m (s.stop c) ((s.setDmem m).stop c) := fun _ => rfl
  cases i with
  | add rc ra rb | sub rc ra rb | xor rc ra rb | or rc ra rb | and rc ra rb | mult rc ra rb | div rc ra rb =>
    exact binaryAlu_related rfl hstop fun _ _ _ _ _ _ => rfl
  | cmp rc ra rb => exact execCmp_related rfl hstop rfl (fun _ _ => rfl) (fun _ _ => rfl) rfl fun _ _ _ => rfl
  | asl rc ra rb | asr rc ra rb | lsl rc ra rb | lsr rc ra rb => exact moveReg_related rfl hstop fun _ _ _ _ => rfl
  | passnota rc ra | passa rc ra =>
    simp only [exec, execPassnota, execPassa]
    exact moveReg_related rfl hstop fun _ _ _ _ => rfl
  | inc rc | dec rc | zeros rc | lcl rc imm | lch rc imm =>
    simp only [exec, execInc, execDec, execZeros, execLcl, execLch]
    exact updateReg_related rfl hstop fun _ _ => rfl
  | push ra | pop rc | call ra | load rc ra | store ra rb => simp [Instr.mnemonic] at hi
  | ret | j addr | jal addr | halt => exact .next rfl
  | jr ra => exact execJr_related rfl hstop fun _ _ => rfl
  | beq ra rb addr => exact branch_related (cond := id) rfl hstop (fun _ _ => rfl) (fun _ _ => rfl) rfl rfl
  | bne ra rb addr => exact branch_related (cond := not) rfl hstop (fun _ _ => rfl) (fun _ _ => rfl) rfl rfl

/-- Settles O18: the writers by the shapes of effect, the readers by `exec_setDmem`. -/
theorem dataStoreTouchedByFiveInstructions : Obligations.DataStoreTouchedByFiveInstructions := by
  intro i s t h
  constructor
  · intro hi a
    exact congrArg (Memory.read · a) ((exec_effect h).dmem_eq hi)
  · intro hi m
    obtain ⟨t', ht', hm⟩ := (exec_setDmem s m hi).exists_next h
    exact ht'.trans (congrArg _ hm)

end Sys2Proof.Machine

/-! An instruction's result depends on the registers it reads only (R23). -/

namespace Sys2Proof.Machine

/-- Two states that look the same to an instruction that reads these registers. -/
structure AgreesOn (regs : List Nat) (s s' : State) : Prop where
  reg : ∀ r : Reg, r.val ∈ regs → s'.reg r = s.reg r
  pc : s'.pc = s.pc
  base : s'.base = s.base
  run : s'.run = s.run
  dmem : s'.dmem = s.dmem
  cmpFn : s'.cmpFn = s.cmpFn

/-- What R23 asks of the next states t and t' of an instruction i from s and s'. -/
def SameResult (i : Instr) (s s' t t' : State) : Prop :=
  t'.pc = t.pc ∧ t'.run = t.run ∧ t'.dmem = t.dmem ∧
  (t.run = .running → ∀ r : Reg, r.val ∈ writtenRegs i →
    t'.reg r = t.reg r ∨ (i.mnemonic = .cmp ∧ t.reg r = s.reg r ∧ t'.reg r = s'.reg r))

namespace AgreesOn
variable {regs : List Nat} {s s' : State}

/-- What an operand field names is among the registers read. -/
theorem reg_field (h : AgreesOn regs s s') {f : Field8} (hf : f.toNat ∈ regs) (a : Reg) (ha : f = regField a) :
    s'.reg a = s.reg a := h.reg a (by rw [← regField_toNat, ← ha]; exact hf)

/-- The first sub-step of push and call keeps the agreement. -/
theorem decSp (h : AgreesOn regs s s') (hsp : sp.val ∈ regs) : AgreesOn regs (decSp s) (decSp s') where
  reg := fun r hr => by
    simp only [Machine.decSp, State.setReg_reg, h.reg sp hsp, h.reg r hr]
  pc := h.pc
  base := h.base
  run := h.run
  dmem := h.dmem
  cmpFn := h.cmpFn

theorem basePlusReg_eq (h : AgreesOn regs s s') {r : Reg} (hr : s'.reg r = s.reg r) :
    basePlusReg s' r = basePlusReg s r := by rw [basePlusReg, h.base, hr, basePlusReg]

theorem basePlusAddr_eq (h : AgreesOn regs s s') {n : Nat} (addr : BitVec n) :
    basePlusAddr s' addr = basePlusAddr s addr := by rw [basePlusAddr, h.base, basePlusAddr]

theorem stackAddr_eq (h : AgreesOn regs s s') (hsp : sp.val ∈ regs) : stackAddr s' = stackAddr s := by
  rw [stackAddr, h.reg sp hsp, stackAddr]

theorem linkWord_eq (h : AgreesOn regs s s') : linkWord s' = linkWord s := by rw [linkWord, h.pc, linkWord]

theorem dataWord_eq (h : AgreesOn regs s s') (a : Nat) : s'.dataWord a = s.dataWord a :=
  congrArg (Memory.read · a) h.dmem

end AgreesOn

section
variable {i : Instr} {s s' : State}

/-- The same stop from states that look the same: no register is claimed. -/
theorem sameResult_stop {regs : List Nat} {u u' : State} (h : AgreesOn regs u u') (c : Cause) :
    SameResult i s s' (u.stop c) (u'.stop c) := ⟨h.pc, rfl, h.dmem, fun hr => nomatch hr⟩

/-- The same word written back to the one register of the column. -/
theorem sameResult_writeBack {regs : List Nat} (h : AgreesOn regs s s') {c : Reg} {v v' : Word}
    (hw : writtenRegs i = [c.val]) (hv : v' = v) :
    SameResult i s s' (s.setReg c v).advance (s'.setReg c v').advance := by
  refine ⟨congrArg (· + 1) h.pc, h.run, h.dmem, fun _ r hr => .inl ?_⟩
  obtain rfl : r = c := Fin.ext (by simpa [hw] using hr)
  simp [hv]

/-- A jump to the same target, with no register in the column. -/
theorem sameResult_setPc {regs : List Nat} (h : AgreesOn regs s s') {p p' : Nat} (hw : writtenRegs i = [])
    (hp : p' = p) : SameResult i s s' (s.setPc p) (s'.setPc p') :=
  ⟨hp, h.run, h.dmem, fun _ r hr => by simp [hw] at hr⟩

theorem sameResult_advance {regs : List Nat} (h : AgreesOn regs s s') (hw : writtenRegs i = []) :
    SameResult i s s' s.advance s'.advance := sameResult_setPc h hw (congrArg (· + 1) h.pc)

theorem binaryAlu_sameResult {op : Word → Word → Word} {rc ra rb : Field8} (h : AgreesOn [ra.toNat, rb.toNat] s s')
    (hw : writtenRegs i = [rc.toNat]) :
    Related (SameResult i s s') (binaryAlu op rc ra rb s) (binaryAlu op rc ra rb s') :=
  binaryAlu_related h.pc (sameResult_stop h) fun a b c ha hb hc =>
    sameResult_writeBack h (by rw [hw, hc, regField_toNat])
      (by rw [h.reg_field (by simp) a ha, h.reg_field (by simp) b hb])

theorem moveReg_sameResult {op : Word → Word} {rc ra : Field8} (h : AgreesOn [ra.toNat] s s')
    (hw : writtenRegs i = [rc.toNat]) :
    Related (SameResult i s s') (moveReg op rc ra s) (moveReg op rc ra s') :=
  moveReg_related h.pc (sameResult_stop h) fun a c ha hc =>
    sameResult_writeBack h (by rw [hw, hc, regField_toNat]) (by rw [h.reg_field (by simp) a ha])

theorem updateReg_sameResult {op : Word → Word} {rc : Field8} {regs : List Nat} (h : AgreesOn regs s s')
    (hw : writtenRegs i = [rc.toNat]) (hop : ∀ c, rc = regField c → op (s'.reg c) = op (s.reg c)) :
    Related (SameResult i s s') (updateReg op rc s) (updateReg op rc s') :=
  updateReg_related h.pc (sameResult_stop h) fun c hc =>
    sameResult_writeBack h (by rw [hw, hc, regField_toNat]) (hop c hc)

end

section
variable {s s' : State}

/-- cmp writes the same value in both states, or no register in either. -/
theorem cmp_sameResult {rc ra rb : Field8} (h : AgreesOn [ra.toNat, rb.toNat] s s') :
    Related (SameResult (.cmp rc ra rb) s s') (execCmp rc ra rb s) (execCmp rc ra rb s') :=
  execCmp_related h.pc (sameResult_stop h) h.cmpFn (h.reg_field (by simp)) (h.reg_field (by simp))
    ⟨congrArg (· + 1) h.pc, h.run, h.dmem, fun _ _ _ => .inr ⟨rfl, rfl, rfl⟩⟩
    fun c _ hc => sameResult_writeBack h (by rw [writtenRegs, hc, regField_toNat]) rfl

theorem load_sameResult {rc ra : Field8} (h : AgreesOn [ra.toNat] s s') :
    Related (SameResult (.load rc ra) s s') (execLoad rc ra s) (execLoad rc ra s') :=
  withReg_related h.pc (sameResult_stop h) fun a ha => withReg_related h.pc (sameResult_stop h) fun c hc =>
    have hea : basePlusReg s' a = basePlusReg s a := h.basePlusReg_eq (h.reg_field (by simp) a ha)
    memRead_related hea (sameResult_stop h)
      (.next (sameResult_writeBack h (by rw [writtenRegs, hc, regField_toNat]) (h.dataWord_eq _)))

theorem store_sameResult {ra rb : Field8} (h : AgreesOn [ra.toNat, rb.toNat] s s') :
    Related (SameResult (.store ra rb) s s') (execStore ra rb s) (execStore ra rb s') :=
  withReg_related h.pc (sameResult_stop h) fun a ha => withReg_related h.pc (sameResult_stop h) fun b hb =>
    have hea : basePlusReg s' b = basePlusReg s b := h.basePlusReg_eq (h.reg_field (by simp) b hb)
    memWrite_related hea (sameResult_stop h) (.next ⟨congrArg (· + 1) h.pc, h.run,
      by simp only [State.advance_dmem, State.setDmem_dmem, h.dmem, h.reg_field (by simp) a ha],
      fun _ _ hr => by simp [writtenRegs] at hr⟩)

theorem push_sameResult {ra : Field8} (h : AgreesOn [ra.toNat, 31] s s') :
    Related (SameResult (.push ra) s s') (execPush ra s) (execPush ra s') :=
  withReg_related h.pc (sameResult_stop h) fun a ha => by
    have hsp : sp.val ∈ [ra.toNat, 31] := by simp
    have hd := h.decSp hsp
    have hea := hd.stackAddr_eq hsp
    refine memWrite_related hea (sameResult_stop hd)
      (.next ⟨congrArg (· + 1) h.pc, h.run, ?_, fun _ r hr => .inl ?_⟩)
    · simp only [State.advance_dmem, State.setDmem_dmem, hd.dmem, hd.reg_field (by simp) a ha]
    · exact hd.reg r (List.mem_cons_of_mem _ hr)

theorem call_sameResult {ra : Field8} (h : AgreesOn [ra.toNat, 31] s s') :
    Related (SameResult (.call ra) s s') (execCall ra s) (execCall ra s') :=
  withReg_related h.pc (sameResult_stop h) fun a ha => by
    have hsp : sp.val ∈ [ra.toNat, 31] := by simp
    have hd := h.decSp hsp
    have hea := hd.stackAddr_eq hsp
    refine memWrite_related hea (sameResult_stop hd) (.next ⟨?_, h.run, ?_, fun _ r hr => .inl ?_⟩)
    · exact congrArg BitVec.toNat (hd.reg_field (by simp) a ha)
    · simp only [State.setPc_dmem, State.setDmem_dmem, hd.dmem, h.linkWord_eq]
    · exact hd.reg r (List.mem_cons_of_mem _ hr)

theorem pop_sameResult {rc : Field8} (h : AgreesOn [31] s s') :
    Related (SameResult (.pop rc) s s') (execPop rc s) (execPop rc s') :=
  withReg_related h.pc (sameResult_stop h) fun c hc => by
    have hsp : sp.val ∈ [31] := by simp
    have hea := h.stackAddr_eq hsp
    refine memRead_related hea (sameResult_stop h)
      (.next ⟨congrArg (· + 1) h.pc, h.run, h.dmem, fun _ r hr => .inl ?_⟩)
    have hcol : r = c ∨ r = sp := by simpa [writtenRegs, hc, regField_toNat, Fin.ext_iff] using hr
    obtain rfl | rfl := hcol <;> simp [incSp, State.setReg_reg, h.reg sp hsp, h.dataWord_eq]

theorem branch_sameResult {i : Instr} {cond : Bool → Bool} {ra rb addr8 : Field8}
    (h : AgreesOn [ra.toNat, rb.toNat] s s') (hw : writtenRegs i = []) :
    Related (SameResult i s s')
      (withReg ra s fun a => withReg rb s fun b => branchIf (cond (regsEqual s a b)) addr8 s)
      (withReg ra s' fun a => withReg rb s' fun b => branchIf (cond (regsEqual s' a b)) addr8 s') :=
  branch_related h.pc (sameResult_stop h) (h.reg_field (by simp)) (h.reg_field (by simp))
    (sameResult_setPc h hw (h.basePlusAddr_eq addr8)) (sameResult_advance h hw)

/-- Every instruction does the same in two states that look the same to it. -/
theorem exec_sameResult {i : Instr} (h : AgreesOn (readRegs i) s s') :
    Related (SameResult i s s') (exec i s) (exec i s') := by
  cases i with
  | add rc ra rb | sub rc ra rb | xor rc ra rb | or rc ra rb | and rc ra rb | mult rc ra rb | div rc ra rb =>
    exact binaryAlu_sameResult h rfl
  | cmp rc ra rb => exact cmp_sameResult h
  | asl rc ra rb | asr rc ra rb | lsl rc ra rb | lsr rc ra rb => exact moveReg_sameResult h rfl
  | passnota rc ra | passa rc ra =>
    simp only [exec, execPassnota, execPassa]
    exact moveReg_sameResult h rfl
  | inc rc | dec rc | lcl rc imm | lch rc imm =>
    simp only [exec, execInc, execDec, execLcl, execLch]
    exact updateReg_sameResult h rfl fun c hc => by rw [h.reg_field List.mem_cons_self c hc]
  | zeros rc =>
    simp only [exec, execZeros]
    exact updateReg_sameResult h rfl fun _ _ => rfl
  | push ra => exact push_sameResult h
  | pop rc => exact pop_sameResult h
  | call ra => exact call_sameResult h
  | ret => exact .next (sameResult_setPc h rfl (h.basePlusReg_eq (h.reg sp List.mem_cons_self)))
  | load rc ra => exact load_sameResult h
  | store ra rb => exact store_sameResult h
  | j addr => exact .next (sameResult_setPc h rfl (h.basePlusAddr_eq addr))
  | jal addr =>
    refine .next ⟨h.basePlusAddr_eq addr, h.run, h.dmem, fun _ r hr => .inl ?_⟩
    obtain rfl : r = sp := Fin.ext (by simpa [writtenRegs] using hr)
    simp [h.linkWord_eq]
  | jr ra =>
    exact execJr_related h.pc (sameResult_stop h) fun a ha =>
      sameResult_setPc h rfl (h.basePlusReg_eq (h.reg_field List.mem_cons_self a ha))
  | beq ra rb addr => exact branch_sameResult (cond := id) h rfl
  | bne ra rb addr => exact branch_sameResult (cond := not) h rfl
  | halt =>
    simp only [exec, execHalt, raise, h.pc]
    exact .next (sameResult_stop h _)

end

/-- Settles O20, instruction by instruction (`exec_sameResult`). -/
theorem resultDependsOnReadRegistersOnly : Obligations.ResultDependsOnReadRegistersOnly := by
  intro i s s' t t' hreg hpc hbase hrun hdmem hfn _ h h'
  obtain ⟨u, hu, hsame⟩ := (exec_sameResult ⟨hreg, hpc, hbase, hrun, hdmem, hfn⟩).exists_next h
  cases h'.symm.trans hu
  exact hsame

end Sys2Proof.Machine

/-! The lines of an image as the loader reads them: a word's binary text and a directive (R81, R293, R294). -/

namespace Sys2Proof.Machine

/-- A line in which no comment starts is kept whole (R100). -/
theorem stripComment_eq_self {l : Line} (h : '#' ∉ l) : stripComment l = l := by
  rw [stripComment, List.takeWhile_eq_self_iff]
  intro c hc
  simpa using fun e : c = '#' => h (e ▸ hc)

/-- A line without the letter a holds no directive (R293). -/
theorem directiveRest_eq_none {l : Line} (h : 'a' ∉ l) : directiveRest l = none := by
  have hne : (l.dropWhile isSeparator).take addressWord.length ≠ addressWord := by
    intro e
    have ha : 'a' ∈ (l.dropWhile isSeparator).take addressWord.length := by rw [e]; decide
    exact h ((List.dropWhile_suffix isSeparator).subset (List.mem_of_mem_take ha))
  simp only [directiveRest, if_neg hne]

theorem mem_binaryText {w : Word} {c : Char} (h : c ∈ binaryText w) : c = '0' ∨ c = '1' := by
  obtain ⟨d, -, rfl⟩ := List.mem_map.mp h
  split
  · exact .inr rfl
  · exact .inl rfl

@[simp] theorem binaryText_length (w : Word) : (binaryText w).length = 32 := by simp [binaryText]

/-- Reading the first k characters of a word's binary text gives its k leading bits. -/
theorem foldl_binaryText (w : Word) : ∀ k ≤ 32,
    ((List.range k).map fun d => if w.getLsbD (31 - d) then '1' else '0').foldl (fun n c => 2 * n + digitValue c) 0 =
      w.toNat / 2 ^ (32 - k)
  | 0, _ => (Nat.div_eq_of_lt w.isLt).symm
  | k + 1, hk => by
    have hdigit : digitValue (if w.getLsbD (31 - k) then '1' else '0') = w.toNat / 2 ^ (31 - k) % 2 := by
      rw [BitVec.getLsbD, Nat.testBit_eq_decide_div_mod_eq]
      obtain h | h := Nat.mod_two_eq_zero_or_one (w.toNat / 2 ^ (31 - k)) <;> simp [h, digitValue]
    have hpow : w.toNat / 2 ^ (32 - k) = w.toNat / 2 ^ (31 - k) / 2 := by
      rw [Nat.div_div_eq_div_mul, ← pow_succ, show 31 - k + 1 = 32 - k by omega]
    rw [List.range_succ, List.map_append, List.foldl_append, foldl_binaryText w k (by omega)]
    simp only [List.map_cons, List.map_nil, List.foldl_cons, List.foldl_nil, hdigit, hpow,
      show 32 - (k + 1) = 31 - k by omega]
    omega

/-- A word's binary text reads back as the word (R81). -/
theorem parseBinary_binaryText (w : Word) : parseBinary (binaryText w) = some w := by
  have hall : (binaryText w).all (fun c => c == '0' || c == '1') = true := by
    simpa using fun c hc => mem_binaryText hc
  have hvalue : (binaryText w).foldl (fun n c => 2 * n + digitValue c) 0 = w.toNat := by
    simpa [binaryText] using foldl_binaryText w 32 le_rfl
  simp [parseBinary, hall, hvalue]

/-- The loader reads a word's binary text as that word (R294). -/
theorem parseImageLine_binaryText (w : Word) : parseImageLine (binaryText w) = .ok (some (.word w)) := by
  have hmem : ∀ c ∈ binaryText w, isBlank c = false ∧ c ≠ '#' ∧ c ≠ 'a' := by
    intro c hc
    obtain rfl | rfl := mem_binaryText hc <;> decide
  have hne : binaryText w ≠ [] := List.ne_nil_of_length_pos (by simp)
  have htokens : tokens isBlank (binaryText w) = [binaryText w] := by
    simpa [hne] using tokens_gap (g := []) (by simp) fun c hc => (hmem c hc).1
  have hstrip := stripComment_eq_self fun h => (hmem _ h).2.1 rfl
  have hrest := directiveRest_eq_none fun h => (hmem _ h).2.2 rfl
  simp only [parseImageLine, hstrip, hrest, parseWordLine, htokens, parseBinary_binaryText]

/-- A decimal numeral has a digit, and digits only. -/
theorem parseDecimal_some {t : Line} {n : Nat} (h : parseDecimal t = some n) :
    t ≠ [] ∧ ∀ c ∈ t, '0' ≤ c ∧ c ≤ '9' := by
  unfold parseDecimal at h
  split at h
  · next hif => simpa using hif
  · cases h

theorem digit_not_separator {c : Char} (h : '0' ≤ c ∧ c ≤ '9') : isSeparator c = false ∧ c ≠ '#' := by
  have hlow : ∀ d : Char, d < '0' → c ≠ d := fun d hd e => absurd h.1 (e ▸ not_le.mpr hd)
  simp [isSeparator, isBlank, hlow]

/-- The operand of a directive, absent or decimal, after any gap (R293). -/
theorem parseDirective_gap {gap operand : Line} {n : Nat} (hgap : ∀ c ∈ gap, isSeparator c = true)
    (hop : (operand = [] ∧ n = 0) ∨ parseDecimal operand = some n) :
    parseDirective (gap ++ operand) = .ok (.address n) := by
  obtain ⟨rfl, rfl⟩ | hn := hop
  · have htokens : tokens isSeparator (gap ++ []) = [] := by simpa using tokens_gap (t := []) hgap (by simp)
    simp only [parseDirective, htokens]
  · obtain ⟨hne, hdigits⟩ := parseDecimal_some hn
    have htokens : tokens isSeparator (gap ++ operand) = [operand] := by
      simpa [hne] using tokens_gap hgap fun c hc => (digit_not_separator (hdigits c hc)).1
    simp only [parseDirective, htokens, hn]

/-- The loader reads the first line of a block as a directive to its start (R293). -/
theorem parseImageLine_directive {b : ImageBlock} (h : b.Proper) :
    parseImageLine (addressWord ++ b.gap ++ b.operand) = .ok (some (.address b.start)) := by
  obtain ⟨hgap, hop, -, -⟩ := h
  have hcomment : '#' ∉ addressWord ++ b.gap ++ b.operand := by
    have hg : '#' ∉ b.gap := fun hc => absurd (hgap _ hc) (by decide)
    have ho : '#' ∉ b.operand := by
      obtain ⟨he, -⟩ | hn := hop
      · simp [he]
      · exact fun hc => (digit_not_separator ((parseDecimal_some hn).2 _ hc)).2 rfl
    simp [addressWord, hg, ho]
  rw [parseImageLine, stripComment_eq_self hcomment, List.append_assoc, directiveRest_address]
  simp only [parseDirective_gap hgap hop, Except.map]

end Sys2Proof.Machine

/-! What the loader's state is after the lines of words and blocks (R293 to R295). -/

namespace Sys2Proof.Machine

/-- Words stored from address lo on, over the word w at address a. -/
def wordsAt (lo : Nat) (ws : List Word) (a : Nat) (w : Word) : Word :=
  if lo ≤ a ∧ a < lo + ws.length then ws.getD (a - lo) 0 else w

theorem wordsAt_cons (lo : Nat) (v : Word) (ws : List Word) (a : Nat) (w : Word) :
    wordsAt lo (v :: ws) a w = wordsAt (lo + 1) ws a (if a = lo then v else w) := by
  unfold wordsAt
  by_cases ha : a = lo
  · subst ha
    simp
  · simp only [ha, if_false, List.length_cons]
    by_cases hin : lo + 1 ≤ a ∧ a < lo + 1 + ws.length
    · rw [if_pos hin, if_pos (by omega), show a - lo = a - (lo + 1) + 1 by omega, List.getD_cons_succ]
    · rw [if_neg hin, if_neg (by omega)]

/-- The loader from st over lines that store words from the cursor on. -/
theorem LoaderState.lines_words : ∀ (ws : List Word) (st : LoaderState), st.imem.wf = true →
    st.cursor + ws.length ≤ storeWords →
    ∃ st', st.lines (ws.map binaryText) = .ok st' ∧ st'.history = st.history ∧ st'.imem.wf = true ∧
      ∀ a, st'.imem.read a = wordsAt st.cursor ws a (st.imem.read a)
  | [], st, hwf, _ => ⟨st, rfl, rfl, hwf, fun a => (if_neg (by simp)).symm⟩
  | v :: ws, st, hwf, hlen => by
    have hcur : st.cursor < storeWords := by rw [List.length_cons] at hlen; omega
    obtain ⟨st', hlines, hhist, hwf', hread⟩ := LoaderState.lines_words ws
      { st with cursor := st.cursor + 1, imem := st.imem.write st.cursor v } (Memory.write_wf hwf hcur v)
      (by rw [List.length_cons] at hlen; simp only; omega)
    refine ⟨st', ?_, hhist, hwf', fun a => ?_⟩
    · rw [List.map_cons, LoaderState.lines, parseImageLine_binaryText]
      simpa only [LoaderState.item, inStore_iff.mpr hcur, if_true] using hlines
    · rw [hread, wordsAt_cons, Memory.read_write hwf]

/-- The loader over one block: its start joins the history and its words stand from there on. -/
theorem LoaderState.lines_block {b : ImageBlock} (hb : b.Proper) {st : LoaderState} (hwf : st.imem.wf = true) :
    ∃ st', st.lines b.lines = .ok st' ∧ st'.history.map Fin.val = st.history.map Fin.val ++ [b.start] ∧
      st'.imem.wf = true ∧ ∀ a, st'.imem.read a = wordsAt b.start b.words a (st.imem.read a) := by
  have hparse := parseImageLine_directive hb
  obtain ⟨-, -, hstart, hlen⟩ := hb
  obtain ⟨st', hlines, hhist, hwf', hread⟩ := LoaderState.lines_words b.words
    { st with cursor := b.start, history := st.history ++ [⟨b.start, hstart⟩] } hwf hlen
  refine ⟨st', ?_, by simp [hhist], hwf', hread⟩
  rw [ImageBlock.lines, LoaderState.lines, hparse]
  simpa only [LoaderState.item, dif_pos hstart] using hlines

/-- The loader over blocks: their starts are the history, in order, and each cell holds what the last block over it
says. -/
theorem LoaderState.lines_blocks : ∀ (bs : List ImageBlock), (∀ b ∈ bs, b.Proper) → ∀ (st : LoaderState),
    st.imem.wf = true →
    ∃ st', st.lines (bs.flatMap ImageBlock.lines) = .ok st' ∧
      st'.history.map Fin.val = st.history.map Fin.val ++ bs.map ImageBlock.start ∧
      st'.imem.wf = true ∧ ∀ a, st'.imem.read a = blocksWord bs a (st.imem.read a)
  | [], _, st, hwf => ⟨st, rfl, by simp, hwf, fun _ => rfl⟩
  | b :: bs, hbs, st, hwf => by
    obtain ⟨st₁, hl₁, hh₁, hwf₁, hr₁⟩ := LoaderState.lines_block (hbs b List.mem_cons_self) hwf
    obtain ⟨st₂, hl₂, hh₂, hwf₂, hr₂⟩ :=
      LoaderState.lines_blocks bs (fun c hc => hbs c (List.mem_cons_of_mem _ hc)) st₁ hwf₁
    refine ⟨st₂, ?_, by simp [hh₂, hh₁], hwf₂, fun a => ?_⟩
    · rw [List.flatMap_cons, LoaderState.lines_append _ hl₁, hl₂]
    · rw [hr₂, hr₁]
      rfl

/-- Booting an image the loader accepts (R295, R296). -/
theorem boot_of_lines {ls : List Line} {st : LoaderState} (n : Option Nat) (h : LoaderState.start.lines ls = .ok st) :
    boot ls n = .ok (State.launch ⟨st.imem, st.history.head?.getD 0, n, []⟩) := by
  simp only [boot, loadImage, h]

/-- Settles O53: the leading words and then the blocks, from the loader's start. -/
theorem imageDirectivesPlaceTheirLines : Obligations.ImageDirectivesPlaceTheirLines := by
  intro ws bs n hlen hbs
  obtain ⟨st₁, hl₁, hh₁, hwf₁, hr₁⟩ := LoaderState.lines_words ws .start Memory.wf_empty
    (by simpa [LoaderState.start] using hlen)
  obtain ⟨st₂, hl₂, hh₂, hwf₂, hr₂⟩ := LoaderState.lines_blocks bs hbs st₁ hwf₁
  refine ⟨_, boot_of_lines n (by rw [LoaderState.lines_append _ hl₁, hl₂]), ?_, rfl, fun a => ?_⟩
  · have hhist : st₂.history.map Fin.val = bs.map ImageBlock.start := by simpa [hh₁, LoaderState.start] using hh₂
    have hhead := congrArg List.head? hhist
    rw [List.head?_map, List.head?_map] at hhead
    rw [← hhead]
    cases st₂.history <;> rfl
  · have hlead : st₁.imem.read a = ws.getD a 0 := by
      rw [hr₁]
      by_cases ha : a < ws.length
      · simp [wordsAt, LoaderState.start, ha]
      · simp [wordsAt, LoaderState.start, ha, Memory.read, unlistedWord]
    rw [← hlead, ← hr₂]
    rfl

end Sys2Proof.Machine

/-! The launch state over a step, a fetch beyond the store, and a load after a store (R29, R57, R63). -/

namespace Sys2Proof.Machine

/-- Settles O21: the common stages change run and steps only, and the meaning's part is `Effect.launchKept`. -/
theorem noStepChangesTheInstructionStore : Obligations.NoStepChangesTheInstructionStore := by
  intro opc s t h
  obtain ⟨-, ⟨-, rfl⟩ | ⟨-, -, rfl⟩ | ⟨-, -, -, rfl⟩ | ⟨-, -, i, -, hi⟩⟩ := cycle_next h
  · exact ⟨rfl, rfl, rfl, rfl⟩
  · exact ⟨rfl, rfl, rfl, rfl⟩
  · exact ⟨rfl, rfl, rfl, rfl⟩
  · exact (exec_effect hi).launchKept

section
variable {s : State}

theorem exec_load (c a : Reg) : exec (.load (regField c) (regField a)) s =
    memRead (basePlusReg s a) s fun v => writeBack c v s := by
  simp only [exec, execLoad, withReg_regField]

theorem exec_store (a b : Reg) : exec (.store (regField a) (regField b)) s =
    memWrite (basePlusReg s b) (s.reg a) s fun t => .next t.advance := by
  simp only [exec, execStore, withReg_regField]

/-- load at an address within the store (R221). -/
theorem exec_load_in {c a : Reg} (h : basePlusReg s a < storeWords) :
    exec (.load (regField c) (regField a)) s = .next (s.setReg c (s.dataWord (basePlusReg s a))).advance :=
  (exec_load c a).trans (memRead_in h)

/-- store at an address within the store (R222). -/
theorem exec_store_in {a b : Reg} (h : basePlusReg s b < storeWords) :
    exec (.store (regField a) (regField b)) s =
      .next (s.setDmem (s.dmem.write (basePlusReg s b) (s.reg a))).advance :=
  (exec_store a b).trans (memWrite_in h)

/-- A running core with budget left counts its step and goes on to the fetch (R121, decision D12). -/
theorem cycle_of_unspent {opc : OpcodeMap} {meaning : Instr → State → Out} (hrun : s.run = .running)
    (hb : s.maxSteps ≠ some s.steps) : cycle opc meaning s = fetch (s.setSteps (s.steps + 1)) fun w =>
      decodeStage opc w (s.setSteps (s.steps + 1)) fun i => meaning i (s.setSteps (s.steps + 1)) := by
  have hspent : ¬ budgetSpent s = true := by simpa [budgetSpent] using hb
  simp only [cycle, whileRunning, hrun, budgetCheck, if_neg hspent]

theorem fetch_out {k : Word → Out} (h : storeWords ≤ s.pc) : fetch s k = raise s (.pcOutOfRange s.pc) :=
  if_neg (by rw [inStore_iff]; omega)

end

/-- Settles O42: the store leaves BASE and the address register, so the load reads the cell just written. -/
theorem loadSeesThePrecedingStore : Obligations.LoadSeesThePrecedingStore := by
  intro a b c s hwf hle
  have hin : basePlusReg s b < storeWords := Nat.lt_succ_of_le hle
  refine ⟨_, _, exec_store_in hin, exec_load_in hin, rfl, ?_⟩
  rw [State.advance_reg, State.setReg_reg_same]
  exact (Memory.read_write hwf _ _ _).trans (if_pos rfl)

/-- Settles O10: the step is counted and its fetch raises the stop (`fetch_out`), which changes the run state only. -/
theorem fetchBeyondTheStoreStops : Obligations.FetchBeyondTheStoreStops := by
  intro opc s hrun hb hpc
  refine ⟨(s.setSteps (s.steps + 1)).stop (.pcOutOfRange s.pc), ?_, rfl, rfl, fun _ _ => rfl, fun _ => rfl,
    rfl, rfl, rfl, rfl⟩
  rw [stepWith, cycle_of_unspent hrun hb]
  exact fetch_out hpc

end Sys2Proof.Machine

/-! The decoder as an inverse of the encoder, and what it accepts (R88, R90 to R94, R97). -/

namespace Sys2Proof

section
variable {opc : OpcodeMap} {w : Word}

/-- What an admissible map decodes, with the mnemonic read off the instruction (R92). -/
theorem decodeWith_eq_ok_iff (h : opc.Admissible) {i : Instr} :
    decodeWith opc w = .ok i ↔ opcodeField w = opc i.mnemonic ∧ instrOf i.mnemonic w = i := by
  constructor
  · intro hi
    cases hm : resolveOpcode opc (opcodeField w) with
    | none => simp [decodeWith, hm] at hi
    | some m =>
      obtain rfl : instrOf m w = i := by simpa [decodeWith, hm] using hi
      rw [instrOf_mnemonic]
      exact ⟨((resolveOpcode_some h).mp hm).symm, rfl⟩
  · rintro ⟨hop, hi⟩
    rw [decodeWith_of_opcode h hop, hi]

/-- A word is rejected exactly when no mnemonic has its opcode (R94). -/
theorem decodeWith_eq_error_iff :
    decodeWith opc w = .error (.invalidOpcode w) ↔ ∀ m, opc m ≠ opcodeField w := by
  rw [← resolveOpcode_none, decodeWith]
  cases resolveOpcode opc (opcodeField w) <;> simp

/-- The packed word of a mnemonic's opcode decodes to that mnemonic, with operands from the packed fields. -/
theorem decodeWith_packWord (h : opc.Admissible) (m : Mnemonic) (f1 f2 f3 : Field8) :
    decodeWith opc (packWord (opc m) f1 f2 f3) = .ok (instrOf m (packWord (opc m) f1 f2 f3)) :=
  decodeWith_of_opcode h (opcodeField_packWord ..)

/-- The immediate of an lcl or lch word (R86). -/
@[simp] theorem imm16Of_append (op : Field8) (imm16 : BitVec 16) (rc : Field8) :
    imm16Of (op ++ imm16 ++ rc : Word) = imm16 :=
  (BitVec.extractLsb'_append_eq_of_le (Nat.le_refl 8)).trans BitVec.extractLsb'_append_eq_right

/-- The destination of an lcl or lch word. -/
@[simp] theorem field3_append (op : Field8) (imm16 : BitVec 16) (rc : Field8) :
    field3 (op ++ imm16 ++ rc : Word) = rc :=
  BitVec.extractLsb'_append_eq_right

/-- The address of a j or jal word (R84). -/
@[simp] theorem addr24Of_append (op : Field8) (addr24 : BitVec 24) : addr24Of (op ++ addr24 : Word) = addr24 :=
  BitVec.extractLsb'_append_eq_right

/-- The opcode field of a canonical word (R82, R88, R93). -/
theorem opcodeField_encodeWith (h : opc.Admissible) : ∀ i, opcodeField (encodeWith opc i) = opc i.mnemonic
  | .add a b c => Laws.EncodedOpcode.add a b c opc h
  | .sub a b c => Laws.EncodedOpcode.sub a b c opc h
  | .xor a b c => Laws.EncodedOpcode.xor a b c opc h
  | .or a b c => Laws.EncodedOpcode.or a b c opc h
  | .and a b c => Laws.EncodedOpcode.and a b c opc h
  | .mult a b c => Laws.EncodedOpcode.mult a b c opc h
  | .div a b c => Laws.EncodedOpcode.div a b c opc h
  | .cmp a b c => Laws.EncodedOpcode.cmp a b c opc h
  | .asl a b c => Laws.EncodedOpcode.asl a b c opc h
  | .asr a b c => Laws.EncodedOpcode.asr a b c opc h
  | .lsl a b c => Laws.EncodedOpcode.lsl a b c opc h
  | .lsr a b c => Laws.EncodedOpcode.lsr a b c opc h
  | .inc a => Laws.EncodedOpcode.inc a opc h
  | .dec a => Laws.EncodedOpcode.dec a opc h
  | .zeros a => Laws.EncodedOpcode.zeros a opc h
  | .passnota a b => Laws.EncodedOpcode.passnota a b opc h
  | .passa a b => Laws.EncodedOpcode.passa a b opc h
  | .lcl a b => Laws.EncodedOpcode.lcl a b opc h
  | .lch a b => Laws.EncodedOpcode.lch a b opc h
  | .push a => Laws.EncodedOpcode.push a opc h
  | .pop a => Laws.EncodedOpcode.pop a opc h
  | .call a => Laws.EncodedOpcode.call a opc h
  | .ret => Laws.EncodedOpcode.ret opc h
  | .load a b => Laws.EncodedOpcode.load a b opc h
  | .store a b => Laws.EncodedOpcode.store a b opc h
  | .j a => Laws.EncodedOpcode.j a opc h
  | .jal a => Laws.EncodedOpcode.jal a opc h
  | .jr a => Laws.EncodedOpcode.jr a opc h
  | .beq a b c => Laws.EncodedOpcode.beq a b c opc h
  | .bne a b c => Laws.EncodedOpcode.bne a b c opc h
  | .halt => Laws.EncodedOpcode.halt opc h

/-- The fields of a canonical word give the operands back, under any map (R97). -/
theorem instrOf_encodeWith (opc : OpcodeMap) (i : Instr) : instrOf i.mnemonic (encodeWith opc i) = i := by
  cases i with
  | lcl rc imm16 | lch rc imm16 => simp only [Instr.mnemonic, encodeWith, instrOf, field3_append, imm16Of_append]
  | j addr24 | jal addr24 => simp only [Instr.mnemonic, encodeWith, instrOf, addr24Of_append]
  | _ => simp [Instr.mnemonic, encodeWith, instrOf, addr8Of_eq]

end

/-- Settles O1: the opcode field selects the mnemonic, and the other fields give the operands back. -/
theorem decodeEncodeRoundTrip : Obligations.DecodeEncodeRoundTrip := fun opc h i =>
  (decodeWith_eq_ok_iff h).mpr ⟨opcodeField_encodeWith h i, instrOf_encodeWith opc i⟩

/-- Settles O2, with `instrOf m w` for the instruction of the mnemonic. -/
theorem opcodeFieldAloneSelects : Obligations.OpcodeFieldAloneSelects := by
  intro opc h w m
  constructor
  · rintro ⟨i, hi, rfl⟩
    exact ((decodeWith_eq_ok_iff h).mp hi).1
  · exact fun hop => ⟨instrOf m w, decodeWith_of_opcode h hop, instrOf_mnemonic m w⟩

/-- Settles O4: halt has no operand, so its opcode is all there is to test. -/
theorem haltWords : Obligations.HaltWords := by
  refine ⟨fun _ => rfl, fun opc h w => ?_⟩
  rw [← h.2]
  exact (decodeWith_eq_ok_iff h).trans (and_iff_left rfl)

/-- Settles O5: the opcode selects each mnemonic (`decodeWith_packWord`), and its operands are made of the three bytes. -/
theorem operandsComeFromTheirFields : Obligations.OperandsComeFromTheirFields := by
  intro opc h f1 f2 f3
  simp only [decodeWith_packWord h, instrOf, imm16Of_eq, addr24Of_eq, addr8Of_eq, field1_packWord, field2_packWord,
    field3_packWord, and_self]

end Sys2Proof

/-! The opcodes of the default map (R90, R91, R94). -/

namespace Sys2Proof

/-- The default map's codes are told apart: the search for a mnemonic's code ends at that mnemonic. -/
theorem resolveOpcode_defaultOpc (m : Mnemonic) : resolveOpcode defaultOpc (defaultOpc m) = some m := by
  cases m <;> decide

theorem defaultOpc_admissible : defaultOpc.Admissible := by
  refine ⟨fun m n hmn => ?_, rfl⟩
  have hm := resolveOpcode_defaultOpc m
  rw [hmn, resolveOpcode_defaultOpc n] at hm
  exact (Option.some.inj hm).symm

/-- The codes of the default map are 0x01 to 0x1F but 0x0D, and 0xFF. -/
theorem forall_defaultOpc_ne_iff (op : Field8) : (∀ m, defaultOpc m ≠ op) ↔
    (op = 0x00 ∨ op = 0x0D ∨ (0x20 ≤ op.toNat ∧ op.toNat ≤ 0xFE)) := by
  constructor
  · intro h
    have hcodes : ∀ c ∈ Mnemonic.all.map defaultOpc, c ≠ op := by simpa using fun m _ => h m
    simp only [Mnemonic.all, defaultOpc, List.map_cons, List.map_nil, List.forall_mem_cons] at hcodes
    bv_omega
  · rintro hop m rfl
    cases m <;> simp [defaultOpc] at hop

/-- Settles O3: the codes of the default map decide (`forall_defaultOpc_ne_iff`). -/
theorem defaultMapIllegalOpcodes : Obligations.DefaultMapIllegalOpcodes :=
  ⟨defaultOpc_admissible, fun _ => decodeWith_eq_error_iff.trans (forall_defaultOpc_ne_iff _)⟩

/-- Settles O6 by running the decoder on each word. -/
theorem sampleWordsDecode : Obligations.SampleWordsDecode := by
  unfold Obligations.SampleWordsDecode
  decide

end Sys2Proof

/-! The binary text of a word (R81). -/

namespace Sys2Proof.Machine

/-- The character at position d from the left is w[31-d] (R81, decision D1). -/
theorem binaryText_getElem? (w : Word) {d : Nat} (hd : d < 32) :
    (binaryText w)[d]? = some (if w.getLsbD (31 - d) then '1' else '0') := by
  simp only [binaryText, List.getElem?_map, List.getElem?_range hd, Option.map_some]

/-- Settles O7: length, each character, and `parseBinary_binaryText`. -/
theorem binaryTextReadsBack : Obligations.BinaryTextReadsBack := fun w =>
  ⟨binaryText_length w, fun _ hd => binaryText_getElem? w hd, parseBinary_binaryText w⟩

end Sys2Proof.Machine

/-! The operand check over all instructions, and what an instruction can stop with (R127, R266). -/

namespace Sys2Proof.Machine

/-- Settles O14: each meaning nests its register operands in the order f1, f2, f3, so `withReg_stopsAsIs` applies once
per register field. -/
theorem offendingFieldStopsTheRun : Obligations.OffendingFieldStopsTheRun := by
  intro i s f h
  cases i with
  | add rc ra rb | sub rc ra rb | xor rc ra rb | or rc ra rb | and rc ra rb | mult rc ra rb | div rc ra rb =>
    simp only [exec, execAdd, execSub, execXor, execOr, execAnd, execMult, execDiv, binaryAlu]
    exact withReg_stopsAsIs h fun _a h => withReg_stopsAsIs h fun _b h => withReg_stopsAsIs h fun _c h => nomatch h
  | cmp rc ra rb => exact cmp_checksOperands rc ra rb s f h
  | asl rc ra rb | asr rc ra rb | lsl rc ra rb | lsr rc ra rb | passnota rc ra | passa rc ra | load rc ra
  | store ra rb | beq ra rb addr8 | bne ra rb addr8 =>
    simp only [exec, execAsl, execAsr, execLsl, execLsr, execPassnota, execPassa, moveReg, execLoad, execStore,
      execBeq, execBne]
    exact withReg_stopsAsIs h fun _a h => withReg_stopsAsIs h fun _b h => nomatch h
  | inc rc | dec rc | zeros rc | lcl rc imm16 | lch rc imm16 | push ra | pop rc | call ra | jr ra =>
    simp only [exec, execInc, execDec, execZeros, execLcl, execLch, updateReg, execPush, execPop, execCall, execJr]
    exact withReg_stopsAsIs h fun _a h => nomatch h
  | ret | j addr24 | jal addr24 | halt => exact nomatch h

/-- The causes an instruction i can stop with from s; the other three belong to the stages before it. -/
inductive InstrCause (i : Instr) (s : State) : Cause → Prop where
  | halt (hi : i = .halt) : InstrCause i s (.halt s.pc)
  | dataAddressOutOfRange {ea : Nat} (h : storeWords ≤ ea) : InstrCause i s (.dataAddressOutOfRange ea)
  | registerIndexOutOfRange {f : Field8} (h : i.offendingField = some f) :
      InstrCause i s (.registerIndexOutOfRange s.pc f.toNat)
  | refused (hi : i.mnemonic = .cmp) : InstrCause i s (.refused s.pc .cmp)

section
variable {i : Instr} {s t : State} {c : Cause}

/-- An instruction that stops the run does so with a cause of its own and leaves pc (R266). -/
theorem Effect.stopped (h : Effect i s t) (hs : s.run = .running) (ht : t.run = .stopped c) :
    InstrCause i s c ∧ t.pc = s.pc := by
  cases h with
  | operandStop hoff hf => cases ht; exact ⟨.registerIndexOutOfRange hoff, rfl⟩
  | refuse => cases ht; exact ⟨.refused rfl, rfl⟩
  | halt => cases ht; exact ⟨.halt rfl, rfl⟩
  | dataStop hm hea => cases ht; exact ⟨.dataAddressOutOfRange hea, rfl⟩
  | stackStop hm hea => cases ht; exact ⟨.dataAddressOutOfRange hea, rfl⟩
  | _ => exact nomatch hs.symm.trans ht

/-- An instruction outside Branch/Jump that lets the run go on advances pc (R130). -/
theorem Effect.pc_eq_succ (h : Effect i s t) (ht : t.run = .running)
    (hi : categoryOf i.mnemonic ≠ some .branchJump) : t.pc = s.pc + 1 := by
  cases h with
  | operandStop | refuse | halt | dataStop | stackStop => exact nomatch ht
  | noValue | register | store | push | pop => rfl
  | call | jal => exact absurd rfl hi
  | jump _ _ hcat | notTaken hcat => exact absurd hcat hi

/-- A well-formed instruction has no offending field (R127). -/
theorem offendingField_eq_none (h : i.wellFormed = true) : i.offendingField = none := by
  simpa [Instr.offendingField, Instr.wellFormed, List.find?_eq_none, List.all_eq_true] using h

end

/-- Settles O15: the index stop needs an offending field (`InstrCause`). -/
theorem wellFormedNeverOffends : Obligations.WellFormedNeverOffends := by
  intro i s t hwf hs h T k ht
  obtain ⟨hc, -⟩ := (exec_effect h).stopped hs ht
  cases hc with
  | registerIndexOutOfRange hoff => exact nomatch (offendingField_eq_none hwf).symm.trans hoff

/-- Settles O17, by the shapes of effect that go on and those that stop. -/
theorem pcAdvancesOutsideBranchJump : Obligations.PcAdvancesOutsideBranchJump := fun _i _s _t hs h =>
  ⟨(exec_effect h).pc_eq_succ, fun _c ht => ((exec_effect h).stopped hs ht).2⟩

end Sys2Proof.Machine

/-! The step, one equation per way its stages can go (R121 to R125, R132, R271). -/

namespace Sys2Proof

/-- A word decodes to an instruction, or is rejected by name (R123, R124). -/
theorem decodeWith_cases (opc : OpcodeMap) (w : Word) :
    (∃ i, decodeWith opc w = .ok i) ∨ decodeWith opc w = .error (.invalidOpcode w) := by
  rw [decodeWith]
  cases resolveOpcode opc (opcodeField w) with
  | some m => exact .inl ⟨_, rfl⟩
  | none => exact .inr rfl

end Sys2Proof

namespace Sys2Proof.Machine

section
variable {opc : OpcodeMap} {s : State}

theorem fetch_in {k : Word → Out} (h : s.pc < storeWords) : fetch s k = k (s.instrWord s.pc) :=
  if_pos (inStore_iff.mpr h)

theorem decodeStage_ok {w : Word} {i : Instr} {k : Instr → Out} (h : decodeWith opc w = .ok i) :
    decodeStage opc w s k = k i := by
  simp only [decodeStage, h]

theorem decodeStage_error {w w' : Word} {k : Instr → Out} (h : decodeWith opc w = .error (.invalidOpcode w')) :
    decodeStage opc w s k = raise s (.invalidOpcode s.pc w') := by
  simp only [decodeStage, h]

theorem stepWith_of_spent (hrun : s.run = .running) (hb : s.maxSteps = some s.steps) :
    stepWith opc s = raise s (.stepBudget s.steps) := by
  have hspent : budgetSpent s = true := by simpa [budgetSpent] using hb
  simp only [stepWith, cycle, whileRunning, hrun, budgetCheck, if_pos hspent]

theorem stepWith_of_pc_out (hrun : s.run = .running) (hb : s.maxSteps ≠ some s.steps) (hpc : storeWords ≤ s.pc) :
    stepWith opc s = raise (s.setSteps (s.steps + 1)) (.pcOutOfRange s.pc) :=
  (cycle_of_unspent hrun hb).trans (fetch_out hpc)

theorem stepWith_of_decodes {i : Instr} (hrun : s.run = .running) (hb : s.maxSteps ≠ some s.steps)
    (hpc : s.pc < storeWords) (hd : decodeWith opc (s.instrWord s.pc) = .ok i) :
    stepWith opc s = exec i (s.setSteps (s.steps + 1)) :=
  (cycle_of_unspent hrun hb).trans ((fetch_in (s := s.setSteps (s.steps + 1)) hpc).trans (decodeStage_ok hd))

theorem stepWith_of_rejected (hrun : s.run = .running) (hb : s.maxSteps ≠ some s.steps) (hpc : s.pc < storeWords)
    (hd : decodeWith opc (s.instrWord s.pc) = .error (.invalidOpcode (s.instrWord s.pc))) :
    stepWith opc s = raise (s.setSteps (s.steps + 1)) (.invalidOpcode s.pc (s.instrWord s.pc)) :=
  (cycle_of_unspent hrun hb).trans ((fetch_in (s := s.setSteps (s.steps + 1)) hpc).trans (decodeStage_error hd))

end

/-- Settles O8: every stage before the meaning passes on (`stepWith_of_decodes`). -/
theorem stepRunsTheDecodedInstruction : Obligations.StepRunsTheDecodedInstruction :=
  ⟨fun _opc _s _i hrun hb hpc hd => stepWith_of_decodes hrun hb (Nat.lt_succ_of_le hpc) hd, fun _ => rfl⟩

/-- Settles O9: no stage after the budget check and no instruction (`InstrCause`) stops with StepBudget. -/
theorem spentBudgetStopsFirst : Obligations.SpentBudgetStopsFirst := by
  constructor
  · exact fun opc s hrun hb => stepWith_of_spent hrun hb
  · intro opc s t n hb h ht
    obtain ⟨hrun, ⟨hspent, -⟩ | ⟨-, -, rfl⟩ | ⟨-, -, -, rfl⟩ | ⟨-, -, i, -, hi⟩⟩ := cycle_next h
    · exact hb hspent
    · cases ht
    · cases ht
    · obtain ⟨hc, -⟩ := (exec_effect hi).stopped hrun ht
      cases hc

/-- Settles O11: an opcode no mnemonic has is rejected with its word (`decodeWith_eq_error_iff`). -/
theorem unmappedOpcodeStops : Obligations.UnmappedOpcodeStops := fun _opc _s hrun hb hpc hm =>
  stepWith_of_rejected hrun hb (Nat.lt_succ_of_le hpc) (decodeWith_eq_error_iff.mpr hm)

/-- Settles O12: halt's meaning is the stop, and the step runs it on the counted state. -/
theorem haltStopsTheRun : Obligations.HaltStopsTheRun :=
  ⟨fun s => raise_stopsAsIs s _, fun _opc _s hrun hb hpc hd =>
    stepWith_of_decodes hrun hb (Nat.lt_succ_of_le hpc) hd⟩

end Sys2Proof.Machine

/-! Every step answers, so a run with a budget reaches its end (R121, R132). -/

namespace Sys2Proof.Machine

theorem Related.answers {R : State → State → Prop} {o o' : Out} : Related R o o' → ∃ t, o = .next t
  | .next _ => ⟨_, rfl⟩

/-- A state looks the same to an instruction as itself, and `exec_sameResult` relates next states only. -/
theorem exec_answers (i : Instr) (s : State) : ∃ t, exec i s = .next t :=
  have hself : AgreesOn (readRegs i) s s := ⟨fun _ _ => rfl, rfl, rfl, rfl, rfl, rfl⟩
  (exec_sameResult hself).answers

/-- Every stage of a running core's step passes on or stops with a next state. -/
theorem stepWith_answers (opc : OpcodeMap) {s : State} (hrun : s.run = .running) : ∃ t, stepWith opc s = .next t := by
  by_cases hb : s.maxSteps = some s.steps
  · exact ⟨_, stepWith_of_spent hrun hb⟩
  by_cases hpc : s.pc < storeWords
  · obtain ⟨i, hd⟩ | hd := decodeWith_cases opc (s.instrWord s.pc)
    · rw [stepWith_of_decodes hrun hb hpc hd]
      exact exec_answers i _
    · exact ⟨_, stepWith_of_rejected hrun hb hpc hd⟩
  · exact ⟨_, stepWith_of_pc_out hrun hb (Nat.le_of_not_lt hpc)⟩

/-- Settles O16: the instructions by `exec_answers`, the stages around them by `stepWith_answers`. -/
theorem everyStepAnswersANextState : Obligations.EveryStepAnswersANextState :=
  ⟨exec_answers, fun opc _s hrun => stepWith_answers opc hrun⟩

theorem core_run_succ (M : Host.Core) {s t : M.State} (k : Nat) (h : M.step s = .next t) :
    M.run (k + 1) s = M.run k t := by
  rw [Host.Core.run, h]

/-- By induction on the budget left: it is spent, or a step counts one and the run has stopped or goes on with less. -/
theorem run_stops_of_budgetLeft {n : Nat} : ∀ (left : Nat) {s : State}, s.run = .running → s.maxSteps = some n →
    s.steps + left = n → ∃ (k : Nat) (t : State) (c : Cause), k ≤ left + 1 ∧
      Host.Core.run Sys2Proof.core k s = .next t ∧ t.run = .stopped c ∧ t.steps ≤ n
  | 0, s, hrun, hmax, hleft => by
    have hspent : step s = .next (s.stop (.stepBudget s.steps)) :=
      stepWith_of_spent hrun (hmax.trans (congrArg some hleft.symm))
    exact ⟨1, _, _, le_rfl, core_run_succ Sys2Proof.core 0 hspent, rfl, Nat.le_of_eq hleft⟩
  | left + 1, s, hrun, hmax, hleft => by
    have hb : s.maxSteps ≠ some s.steps := fun h => absurd (Option.some.inj (hmax.symm.trans h)) (by omega)
    obtain ⟨t, ht⟩ : ∃ t, step s = .next t := stepWith_answers defaultOpc hrun
    obtain ⟨-, hsteps⟩ | ⟨hspent, -⟩ := stepsCountTheStepsBegun defaultOpc s t ht
    · obtain ⟨-, -, hmax', -⟩ := noStepChangesTheInstructionStore defaultOpc s t ht
      cases hrun' : t.run with
      | stopped c => exact ⟨1, t, c, by omega, core_run_succ Sys2Proof.core 0 ht, hrun', by omega⟩
      | running =>
        obtain ⟨k, u, c, hk, hu, hstop, hle⟩ :=
          run_stops_of_budgetLeft left hrun' (hmax'.trans hmax) (by omega)
        exact ⟨k + 1, u, c, by omega, (core_run_succ Sys2Proof.core k ht).trans hu, hstop, hle⟩
    · exact absurd hspent hb

/-- Settles O28, with n - steps the budget left. -/
theorem everyBudgetedRunStops : Obligations.EveryBudgetedRunStops := fun s n hrun hmax hle =>
  run_stops_of_budgetLeft (n - s.steps) hrun hmax (Nat.add_sub_cancel' hle)

end Sys2Proof.Machine

/-! The two-source ALU instructions: the value of each operation, and the write-back they share (R150 to R157). -/

namespace Sys2Proof.Machine

/-- With operands that name registers, a two-source ALU instruction completes with the value of its operation (R150). -/
theorem binaryAlu_registerResult {op : Word → Word → Word} {c a b : Reg} {s : State} {P : Word → Prop}
    (hP : P (op (s.reg a) (s.reg b))) :
    RegisterResult (binaryAlu op (regField c) (regField a) (regField b) s) s c P := by
  simp only [binaryAlu, withReg_regField]
  exact writeBack_registerResult hP

section
variable (a b : Word)

theorem aluAdd_toNat : (aluAdd a b).toNat = (a.toNat + b.toNat) % 2 ^ 32 := by
  rw [aluAdd, ← Nat.cast_add, u32_natCast_toNat]

theorem aluSub_toNat : ((aluSub a b).toNat : Int) = (a.toNat - b.toNat : Int) % 2 ^ 32 := u32_toNat _

theorem aluMult_toNat : (aluMult a b).toNat = (a.toNat * b.toNat) % 2 ^ 32 := by
  rw [aluMult, ← Nat.cast_mul, u32_natCast_toNat]

/-- R157's quotient is cut by no reduction. -/
theorem aluDiv_toNat {b : Word} (hb : b ≠ 0) : (aluDiv a b).toNat = a.toNat / b.toNat := by
  rw [aluDiv, if_neg hb, u32_natCast_toNat]
  exact Nat.mod_eq_of_lt (Nat.lt_of_le_of_lt (Nat.div_le_self _ _) a.isLt)

/-- R157: 0 for a zero divisor, else the quotient by its defining inequalities. -/
theorem aluDiv_zero_or_floor : if b = 0 then aluDiv a b = 0 else
    (aluDiv a b).toNat * b.toNat ≤ a.toNat ∧ a.toNat < ((aluDiv a b).toNat + 1) * b.toNat := by
  split
  next hb => exact if_pos hb
  next hb =>
    have hpos : 0 < b.toNat := Nat.pos_of_ne_zero fun h => hb (BitVec.eq_of_toNat_eq h)
    rw [aluDiv_toNat a hb]
    exact ⟨Nat.div_mul_le_self _ _, Nat.lt_mul_of_div_lt (Nat.lt_succ_self _) hpos⟩

end

/-- Settles O31: the three operations are `u32` of the exact integer results. -/
theorem addSubMultReduceModulo : Obligations.AddSubMultReduceModulo :=
  ⟨decodesAs_of_instrOf fun _ => rfl, decodesAs_of_instrOf fun _ => rfl, decodesAs_of_instrOf fun _ => rfl,
    fun _ _ _ _ =>
      ⟨binaryAlu_registerResult (aluAdd_toNat _ _), binaryAlu_registerResult (aluSub_toNat _ _),
        binaryAlu_registerResult (aluMult_toNat _ _)⟩⟩

/-- Settles O32: the operations are those of `BitVec`, which are defined bit by bit. -/
theorem bitwiseByPosition : Obligations.BitwiseByPosition :=
  ⟨decodesAs_of_instrOf fun _ => rfl, decodesAs_of_instrOf fun _ => rfl, decodesAs_of_instrOf fun _ => rfl,
    fun _ _ _ _ =>
      ⟨binaryAlu_registerResult fun _ => BitVec.getLsbD_xor, binaryAlu_registerResult fun _ => BitVec.getLsbD_or,
        binaryAlu_registerResult fun _ => BitVec.getLsbD_and⟩⟩

/-- Settles O33: div takes no stop of its own, and its value is 0 or the floor quotient (`aluDiv_zero_or_floor`). -/
theorem divIsFloorOrZero : Obligations.DivIsFloorOrZero :=
  ⟨decodesAs_of_instrOf fun _ => rfl, fun _ _ _ _ => binaryAlu_registerResult (aluDiv_zero_or_floor _ _)⟩

end Sys2Proof.Machine

/-! The one-register, move and constant instructions: what each writes back, the value of inc and dec, and the two halves
of a word (R170 to R177). -/

namespace Sys2Proof.Machine

theorem updateReg_regField (op : Word → Word) (c : Reg) (s : State) :
    updateReg op (regField c) s = writeBack c (op (s.reg c)) s := withReg_regField c s _

theorem moveReg_regField (op : Word → Word) (c a : Reg) (s : State) :
    moveReg op (regField c) (regField a) s = writeBack c (op (s.reg a)) s := by
  simp only [moveReg, withReg_regField]

section
variable (c a : Reg) (s : State)

theorem exec_inc : exec (.inc (regField c)) s = writeBack c (u32 ((s.reg c).toNat + 1)) s := by
  simp only [exec, execInc, updateReg_regField]

theorem exec_dec : exec (.dec (regField c)) s = writeBack c (u32 ((s.reg c).toNat - 1)) s := by
  simp only [exec, execDec, updateReg_regField]

theorem exec_zeros : exec (.zeros (regField c)) s = writeBack c 0 s := by
  simp only [exec, execZeros, updateReg_regField]

theorem exec_passnota : exec (.passnota (regField c) (regField a)) s = writeBack c (~~~s.reg a) s := by
  simp only [exec, execPassnota, moveReg_regField]

theorem exec_passa : exec (.passa (regField c) (regField a)) s = writeBack c (s.reg a) s := by
  simp only [exec, execPassa, moveReg_regField]

variable (imm : BitVec 16)

theorem exec_lcl : exec (.lcl (regField c) imm) s = writeBack c (withLowHalf (s.reg c) imm) s := by
  simp only [exec, execLcl, updateReg_regField]

theorem exec_lch : exec (.lch (regField c) imm) s = writeBack c (withHighHalf (s.reg c) imm) s := by
  simp only [exec, execLch, updateReg_regField]

end

section
variable (v : Word)

/-- R171: the successor wraps at 0xFFFFFFFF only. -/
theorem u32_succ_toNat : (u32 (v.toNat + 1)).toNat = if v = 0xFFFFFFFF then 0 else v.toNat + 1 := by
  have hval := u32_toNat (v.toNat + 1)
  split
  next hv => subst hv; decide
  next hv =>
    have hne : v.toNat ≠ 0xFFFFFFFF := fun h => hv (BitVec.eq_of_toNat_eq h)
    omega

/-- R172: the predecessor wraps at 0 only. -/
theorem u32_pred_toNat : (u32 (v.toNat - 1)).toNat = if v = 0 then 0xFFFFFFFF else v.toNat - 1 := by
  have hval := u32_toNat (v.toNat - 1)
  split
  next hv => subst hv; decide
  next hv =>
    have hne : v.toNat ≠ 0 := fun h => hv (BitVec.eq_of_toNat_eq h)
    omega

/-- A word is its high half followed by its low half. -/
theorem halves_append : v.extractLsb' 16 16 ++ v.extractLsb' 0 16 = v :=
  BitVec.extractLsb'_append_extractLsb' (w := 16) (len := 16)

variable (imm : BitVec 16)

/-- The mask and the constant of R176, cut into halves, act on each half alone. -/
theorem withLowHalf_eq_append : withLowHalf v imm = v.extractLsb' 16 16 ++ imm := by
  have hmask : (0xFFFF0000 : Word) = BitVec.allOnes 16 ++ 0#16 := rfl
  have himm : imm.setWidth 32 = 0#16 ++ imm := BitVec.setWidth_eq_append (by decide)
  calc withLowHalf v imm
      = ((v.extractLsb' 16 16 ++ v.extractLsb' 0 16) &&& (BitVec.allOnes 16 ++ 0#16)) ||| (0#16 ++ imm) := by
        rw [halves_append, withLowHalf, hmask, himm]
    _ = v.extractLsb' 16 16 ++ imm := by
        rw [BitVec.and_append, BitVec.or_append, BitVec.and_allOnes, BitVec.and_zero, BitVec.or_zero, BitVec.zero_or]

/-- The mask and the shifted constant of R177, cut into halves, act on each half alone. -/
theorem withHighHalf_eq_append : withHighHalf v imm = imm ++ v.extractLsb' 0 16 := by
  have hmask : (0x0000FFFF : Word) = 0#16 ++ BitVec.allOnes 16 := rfl
  have himm : imm.setWidth 32 <<< 16 = imm ++ 0#16 := by
    simpa using (BitVec.setWidth_append_eq_shiftLeft_setWidth_or (w'' := 32) (b := imm) (b' := 0#16)).symm
  calc withHighHalf v imm
      = (imm ++ 0#16) ||| ((v.extractLsb' 16 16 ++ v.extractLsb' 0 16) &&& (0#16 ++ BitVec.allOnes 16)) := by
        rw [halves_append, withHighHalf, hmask, himm]
    _ = imm ++ v.extractLsb' 0 16 := by
        rw [BitVec.and_append, BitVec.or_append, BitVec.and_allOnes, BitVec.and_zero, BitVec.or_zero, BitVec.zero_or]

end

/-- Settles O35: `u32` of the exact successor and predecessor, each with its one wrap. -/
theorem incDecZeros : Obligations.IncDecZeros := by
  refine ⟨decodesAs_of_instrOf fun _ => rfl, decodesAs_of_instrOf fun _ => rfl, decodesAs_of_instrOf fun _ => rfl,
    fun c s => ?_⟩
  rw [exec_inc, exec_dec, exec_zeros]
  exact ⟨writeBack_registerResult (u32_succ_toNat _), writeBack_registerResult (u32_pred_toNat _),
    writeBack_registerResult rfl⟩

/-- Settles O36: the complement of all 32 bits is the distance to 0xFFFFFFFF. -/
theorem complementAndCopy : Obligations.ComplementAndCopy := by
  refine ⟨decodesAs_of_instrOf fun _ => rfl, decodesAs_of_instrOf fun _ => rfl, fun c a s => ?_⟩
  rw [exec_passnota, exec_passa]
  exact ⟨writeBack_registerResult BitVec.toNat_not, writeBack_registerResult rfl⟩

/-- Settles O37: imm16 is f1 || f2 (`imm16Of_eq`), and each half is read off the word written. -/
theorem constantHalves : Obligations.ConstantHalves := by
  refine ⟨decodesAs_of_instrOf fun w => congrArg _ (imm16Of_eq w),
    decodesAs_of_instrOf fun w => congrArg _ (imm16Of_eq w), fun c imm s => ?_⟩
  rw [exec_lcl, exec_lch, withLowHalf_eq_append, withHighHalf_eq_append]
  exact ⟨writeBack_registerResult ⟨BitVec.extractLsb'_append_eq_right, BitVec.extractLsb'_append_eq_left⟩,
    writeBack_registerResult ⟨BitVec.extractLsb'_append_eq_left, BitVec.extractLsb'_append_eq_right⟩⟩

/-- Settles O38: each of the two instructions keeps the half the other writes. -/
theorem halvesBuildTheConstant : Obligations.HalvesBuildTheConstant := by
  refine fun c hi lo s => ⟨⟨_, _, exec_lcl c s lo, exec_lch c _ hi, ?_⟩, ⟨_, _, exec_lch c s hi, exec_lcl c _ lo, ?_⟩⟩
  · simp only [State.advance_reg, State.setReg_reg_same]
    rw [withLowHalf_eq_append, withHighHalf_eq_append, BitVec.extractLsb'_append_eq_right]
  · simp only [State.advance_reg, State.setReg_reg_same]
    rw [withHighHalf_eq_append, withLowHalf_eq_append, BitVec.extractLsb'_append_eq_left]

end Sys2Proof.Machine

/-! The shifts: two values under four names (R190 to R194). -/

namespace Sys2Proof.Machine

/-- With operands that name registers, an instruction that moves one completes with the value of its operation. -/
theorem moveReg_registerResult {op : Word → Word} {c a : Reg} {s : State} {P : Word → Prop} (hP : P (op (s.reg a))) :
    RegisterResult (moveReg op (regField c) (regField a) s) s c P := by
  rw [moveReg_regField]
  exact writeBack_registerResult hP

section
variable (v : Word)

theorem shiftLeftOne_toNat : (shiftLeftOne v).toNat = 2 * v.toNat % 2 ^ 32 := by
  rw [shiftLeftOne, BitVec.toNat_shiftLeft, Nat.shiftLeft_eq, pow_one, Nat.mul_comm]

/-- The zero that enters bit 31 makes the value the floor of the half, also for asr (R190, decision D13). -/
theorem shiftRightOne_toNat : (shiftRightOne v).toNat = v.toNat / 2 := by
  rw [shiftRightOne, BitVec.toNat_ushiftRight, Nat.shiftRight_eq_div_pow, pow_one]

end

/-- Settles O39: asl and lsl mean one move, asr and lsr another, and neither reads rb. -/
theorem shiftsMoveOnePlace : Obligations.ShiftsMoveOnePlace :=
  ⟨decodesAs_of_instrOf fun _ => rfl, decodesAs_of_instrOf fun _ => rfl, decodesAs_of_instrOf fun _ => rfl,
    decodesAs_of_instrOf fun _ => rfl, fun _ _ _ _ =>
      ⟨moveReg_registerResult (shiftLeftOne_toNat _), moveReg_registerResult (shiftLeftOne_toNat _),
        moveReg_registerResult (shiftRightOne_toNat _), moveReg_registerResult (shiftRightOne_toNat _)⟩⟩

end Sys2Proof.Machine

/-! The stack pointer's two sub-steps, and the write that push and call share: x[31] decremented and a word stored at the
new x[31], or the stop at a bad address (R200, R202). -/

namespace Sys2Proof.Machine

theorem u32_succ (v : Word) : u32 (v.toNat + 1) = v + 1 := by
  have hval := u32_toNat (v.toNat + 1)
  bv_omega

theorem u32_pred (v : Word) : u32 (v.toNat - 1) = v - 1 := by
  have hval := u32_toNat (v.toNat - 1)
  bv_omega

section
variable (s : State)

@[simp] theorem decSp_reg_sp : (decSp s).reg sp = s.reg sp - 1 := (State.setReg_reg_same s sp _).trans (u32_pred _)

@[simp] theorem incSp_reg_sp : (incSp s).reg sp = s.reg sp + 1 := (State.setReg_reg_same s sp _).trans (u32_succ _)

/-- A register read after the decrement; x[31] itself is read decremented (decision D9). -/
theorem decSp_reg (r : Reg) : (decSp s).reg r = if r = sp then s.reg sp - 1 else s.reg r :=
  (State.setReg_reg s sp r _).trans (by rw [u32_pred])

theorem decSp_regsKept : RegsKept s (decSp s) [sp] := setReg_regsKept s sp _

theorem decSp_launchKept : LaunchKept s (decSp s) := ⟨rfl, rfl, rfl, rfl⟩

theorem stackAddr_decSp : stackAddr (decSp s) = (s.reg sp - 1).toNat := congrArg BitVec.toNat (decSp_reg_sp s)

end

/-- In a step T + 1 fits a word (log 19). -/
theorem linkWord_toNat {s : State} (h : s.pc ≤ 32767) : (linkWord s).toNat = s.pc + 1 := by
  have hval := u32_toNat (s.pc + 1)
  rw [linkWord]
  omega

/-- The state after v is pushed: x[31] decremented, v in the cell below the old x[31]. -/
def pushed (s : State) (v : Word) : State := (decSp s).setDmem (s.dmem.write ((s.reg sp).toNat - 1) v)

section
variable {s : State} {v : Word}

theorem pushed_dataWord (hwf : s.dmem.wf = true) : (pushed s v).dataWord ((s.reg sp).toNat - 1) = v :=
  (Memory.read_write hwf _ _ v).trans (if_pos rfl)

theorem pushed_dataKeptBut (hwf : s.dmem.wf = true) : DataKeptBut ((s.reg sp).toNat - 1) s (pushed s v) :=
  fun b hb => (Memory.read_write hwf _ b v).trans (if_neg hb)

variable {k : State → Out}

/-- The shared write with x[31] in 1..32768. -/
theorem pushWord_in (hlo : 1 ≤ (s.reg sp).toNat) (hhi : (s.reg sp).toNat ≤ 32768) :
    memWrite (stackAddr (decSp s)) v (decSp s) k = k (pushed s v) := by
  have haddr : stackAddr (decSp s) = (s.reg sp).toNat - 1 := by rw [stackAddr_decSp]; bv_omega
  have hin : (s.reg sp).toNat - 1 < 32768 := by omega
  rw [haddr, memWrite_in hin, decSp_dmem, pushed]

/-- The shared write with any other x[31]: its stop, and what that leaves as it was; of x[31] nothing is said (U3). -/
theorem pushWord_out (h : s.reg sp = 0 ∨ 32768 < (s.reg sp).toNat) :
    ∃ t, memWrite (stackAddr (decSp s)) v (decSp s) k = .next t ∧
      t.run = .stopped (.dataAddressOutOfRange (s.reg sp - 1).toNat) ∧
      t.pc = s.pc ∧ DataKept s t ∧ RegsKept s t [sp] ∧ LaunchKept s t ∧ t.steps = s.steps := by
  have hout : 32768 ≤ (s.reg sp - 1).toNat := by
    obtain h0 | hhi := h
    · rw [h0]; decide
    · bv_omega
  rw [stackAddr_decSp, memWrite_out hout]
  exact ⟨_, rfl, rfl, rfl, decSp_dataWord s, decSp_regsKept s, decSp_launchKept s, rfl⟩

end

end Sys2Proof.Machine

/-! push, pop, call and ret (R200 to R203). -/

namespace Sys2Proof.Machine

section
variable (a c : Reg) (s : State)

theorem exec_push : exec (.push (regField a)) s =
    memWrite (stackAddr (decSp s)) ((decSp s).reg a) (decSp s) fun t => .next t.advance := by
  simp only [exec, execPush, withReg_regField]

theorem exec_pop : exec (.pop (regField c)) s =
    memRead (stackAddr s) s fun v => .next (incSp (s.setReg c v)).advance := by
  simp only [exec, execPop, withReg_regField]

theorem exec_call : exec (.call (regField a)) s =
    memWrite (stackAddr (decSp s)) (linkWord s) (decSp s) fun t => .next (t.setPc ((decSp s).reg a).toNat) := by
  simp only [exec, execCall, withReg_regField]

theorem exec_jr : exec (.jr (regField a)) s = .next (s.setPc (basePlusReg s a)) := by
  simp only [exec, execJr, withReg_regField]

theorem exec_ret : exec .ret s = .next (s.setPc (basePlusReg s sp)) := rfl

end

/-- Settles O43: the shared write with x[f1] as its word (`pushWord_in`, `pushWord_out`). -/
theorem pushStoresBelowTheStackTop : Obligations.PushStoresBelowTheStackTop := by
  refine ⟨decodesAs_of_instrOf fun _ => rfl, fun ra => offendingFieldStopsTheRun (.push ra), fun a s hwf => ?_⟩
  rw [exec_push]
  constructor
  · intro hlo hhi
    exact ⟨_, pushWord_in hlo hhi, decSp_reg_sp s, (pushed_dataWord hwf).trans (decSp_reg s a),
      pushed_dataKeptBut hwf, rfl, decSp_regsKept s, decSp_launchKept s, rfl, rfl⟩
  · exact pushWord_out

/-- Settles O46: the shared write with T + 1 as its word, and then the jump (`pushWord_in`, `pushWord_out`). -/
theorem callPushesTheReturnAddress : Obligations.CallPushesTheReturnAddress := by
  refine ⟨decodesAs_of_instrOf fun _ => rfl, fun ra => offendingFieldStopsTheRun (.call ra), fun a s hwf hpc => ?_⟩
  rw [exec_call]
  constructor
  · intro hlo hhi
    exact ⟨_, pushWord_in hlo hhi, decSp_reg_sp s,
      (congrArg BitVec.toNat (pushed_dataWord hwf)).trans (linkWord_toNat hpc), pushed_dataKeptBut hwf,
      congrArg BitVec.toNat (decSp_reg s a), decSp_regsKept s, decSp_launchKept s, rfl, rfl⟩
  · exact pushWord_out

/-- Settles O44: the increment comes after the load, so pop r31 increments the word just loaded (decision D9). -/
theorem popLoadsTheStackTop : Obligations.PopLoadsTheStackTop := by
  refine ⟨decodesAs_of_instrOf fun _ => rfl, fun rc => offendingFieldStopsTheRun (.pop rc), fun c s => ?_⟩
  rw [exec_pop]
  constructor
  · intro hle
    refine ⟨_, memRead_in (Nat.lt_succ_of_le hle), fun hc => ⟨?_, ?_⟩, ?_, rfl, fun r hr => ?_, fun _ => rfl,
      ⟨rfl, rfl, rfl, rfl⟩, rfl, rfl⟩
    · exact (incSp_reg_ne _ hc).trans (State.setReg_reg_same s c _)
    · rw [State.advance_reg, incSp_reg_sp, State.setReg_reg_ne s _ hc.symm]
    · rintro rfl
      rw [State.advance_reg, incSp_reg_sp, State.setReg_reg_same, stackAddr]
    · obtain ⟨hrc, hrsp⟩ : r ≠ c ∧ r ≠ sp := by simpa using hr
      exact (incSp_reg_ne _ hrsp).trans (State.setReg_reg_ne s _ hrc)
  · intro hlt
    exact (memRead_out hlt).trans (raise_stopsAsIs s _)

/-- Settles O45: pop reads the cell push wrote, and its increment undoes push's decrement. -/
theorem popUndoesPush : Obligations.PopUndoesPush := by
  intro a c s hwf ha hc hlo hhi
  obtain ⟨-, -, hpush⟩ := pushStoresBelowTheStackTop
  obtain ⟨-, -, hpop⟩ := popLoadsTheStackTop
  obtain ⟨t, ht, htsp, htcell, -, htpc, -, -, -, htrun⟩ := (hpush a s hwf).1 hlo hhi
  have haddr : (t.reg sp).toNat = (s.reg sp).toNat - 1 := by rw [htsp]; bv_omega
  obtain ⟨u, hu, hregs, -, hupc, -, -, -, -, hurun⟩ := (hpop c t).1 (by omega)
  obtain ⟨huc, husp⟩ := hregs hc
  refine ⟨t, u, ht, hu, hurun.trans htrun, ?_, ?_, by rw [hupc, htpc]⟩
  · rw [huc, haddr, htcell, if_neg ha]
  · rw [husp, htsp, BitVec.sub_add_cancel]

/-- Settles O47: ret is a pc update alone, to the target its meaning names. -/
theorem retJumpsToBasePlusR31 : Obligations.RetJumpsToBasePlusR31 :=
  ⟨decodesAs_of_instrOf fun _ => rfl, fun s => setPc_jumpResult s (basePlusReg s sp)⟩

/-- Settles O50: jr and ret take their target from BASE and one register's value. -/
theorem retIsJrR31 : Obligations.RetIsJrR31 := by
  intro a s h
  rw [exec_jr, exec_ret, basePlusReg, h, basePlusReg]

end Sys2Proof.Machine

/-! load and store at BASE plus a register (R221, R222): the access within the data store, and the stop above it. -/

namespace Sys2Proof.Machine

section
variable (s : State) (a : Nat) (v : Word)

/-- A data write is read back at its address (R63). -/
theorem setDmem_write_dataWord (hwf : s.dmem.wf = true) : (s.setDmem (s.dmem.write a v)).dataWord a = v :=
  (Memory.read_write hwf a a v).trans (if_pos rfl)

theorem setDmem_write_dataKeptBut (hwf : s.dmem.wf = true) : DataKeptBut a s (s.setDmem (s.dmem.write a v)) :=
  fun b hb => (Memory.read_write hwf a b v).trans (if_neg hb)

end

/-- Settles O40: the data read's two cases (`memRead_in`, `memRead_out`); within the store, a write-back of the cell. -/
theorem loadReadsBasePlusRegister : Obligations.LoadReadsBasePlusRegister := by
  refine ⟨decodesAs_of_instrOf fun _ => rfl, fun rc ra => offendingFieldStopsTheRun (.load rc ra), fun c a s => ?_⟩
  rw [exec_load, basePlusReg]
  constructor
  · intro hle
    rw [memRead_in (Nat.lt_succ_of_le hle)]
    exact writeBack_registerResult rfl
  · intro hlt
    exact (memRead_out hlt).trans (raise_stopsAsIs s _)

/-- Settles O41: the data write's two cases (`memWrite_in`, `memWrite_out`); within the store, one cell and pc change. -/
theorem storeWritesBasePlusRegister : Obligations.StoreWritesBasePlusRegister := by
  refine ⟨decodesAs_of_instrOf fun _ => rfl, fun ra rb => offendingFieldStopsTheRun (.store ra rb),
    fun a b s hwf => ?_⟩
  rw [exec_store]
  refine ⟨fun hle => ?_, fun hlt => ?_, rfl⟩
  · exact ⟨_, memWrite_in (Nat.lt_succ_of_le hle), setDmem_write_dataWord s _ _ hwf,
      setDmem_write_dataKeptBut s _ _ hwf, rfl, fun _ _ => rfl, ⟨rfl, rfl, rfl, rfl⟩, rfl, rfl⟩
  · exact (memWrite_out hlt).trans (raise_stopsAsIs s _)

end Sys2Proof.Machine

/-! Jumps and branches (R230 to R234): each is a pc update to a target from BASE or to the next address, and jal links
first. -/

namespace Sys2Proof.Machine

/-- jal's two sub-steps: the link is T + 1, exact in a step, and only x[31] and pc change (R231). -/
theorem exec_jal_links (addr : BitVec 24) {s : State} (hpc : s.pc ≤ 32767) :
    ∃ t, exec (.jal addr) s = .next t ∧ (t.reg sp).toNat = s.pc + 1 ∧ t.pc = s.base.val + addr.toNat ∧
      RegsKept s t [sp] ∧ DataKept s t ∧ ControlKept s t :=
  ⟨(s.setReg sp (linkWord s)).setPc (basePlusAddr s addr), rfl,
    (congrArg BitVec.toNat (State.setReg_reg_same s sp (linkWord s))).trans (linkWord_toNat hpc), rfl,
    setReg_regsKept s sp (linkWord s), setReg_dataKept s sp (linkWord s), setReg_controlKept s sp (linkWord s)⟩

/-- Settles O48: j and jr are a pc update alone (`setPc_jumpResult`), jal one after its link (`exec_jal_links`). -/
theorem jumpsAddBase : Obligations.JumpsAddBase := by
  refine ⟨decodesAs_of_instrOf fun w => congrArg _ (addr24Of_eq w),
    decodesAs_of_instrOf fun w => congrArg _ (addr24Of_eq w), decodesAs_of_instrOf fun _ => rfl,
    fun ra => offendingFieldStopsTheRun (.jr ra), fun addr a s => ⟨?_, ?_, exec_jal_links addr⟩⟩
  · exact setPc_jumpResult s (basePlusAddr s addr)
  · rw [exec_jr]
    exact setPc_jumpResult s (basePlusReg s a)

/-- A branch is a pc update alone, whether taken or not (R233, R234). -/
theorem branchIf_eq_setPc (taken : Bool) (addr8 : Field8) (s : State) :
    branchIf taken addr8 s = .next (s.setPc (if taken then s.base.val + addr8.toNat else s.pc + 1)) := by
  cases taken with
  | true => rfl
  | false => rfl

section
variable (a b : Reg) (addr8 : Field8) (s : State)

theorem exec_beq : exec (.beq (regField a) (regField b) addr8) s =
    .next (s.setPc (if s.reg a = s.reg b then s.base.val + addr8.toNat else s.pc + 1)) := by
  simp only [exec, execBeq, withReg_regField, branchIf_eq_setPc, regsEqual, decide_eq_true_eq]

theorem exec_bne : exec (.bne (regField a) (regField b) addr8) s =
    .next (s.setPc (if s.reg a = s.reg b then s.pc + 1 else s.base.val + addr8.toNat)) := by
  simp only [exec, execBne, withReg_regField, branchIf_eq_setPc, regsEqual, Bool.not_eq_true', decide_eq_false_iff_not,
    ite_not]

end

/-- Settles O49: both branches are a pc update alone, to the target their comparison names (`exec_beq`, `exec_bne`). -/
theorem branchesCompareTwoRegisters : Obligations.BranchesCompareTwoRegisters := by
  refine ⟨decodesAs_of_instrOf fun _ => rfl, decodesAs_of_instrOf fun _ => rfl, fun ra rb addr8 =>
    ⟨offendingFieldStopsTheRun (.beq ra rb addr8), offendingFieldStopsTheRun (.bne ra rb addr8)⟩, fun a b addr8 s => ?_⟩
  rw [exec_beq, exec_bne]
  exact ⟨setPc_jumpResult s _, setPc_jumpResult s _⟩

end Sys2Proof.Machine

/-! A stop is precise: what the instruction that stops, and so the step, leaves as it was (R266, R267). -/

namespace Sys2Proof.Machine

/-- An instruction that stops the run keeps the data store and the registers, but for x[31] where push or call stops on
its address, which it has decremented by then (R267). -/
theorem Effect.stop_keeps {i : Instr} {s t : State} {c : Cause} (h : Effect i s t) (hs : s.run = .running)
    (ht : t.run = .stopped c) : DataKept s t ∧
      (RegsKept s t [] ∨ (RegsKept s t [sp] ∧ (∃ ea, c = .dataAddressOutOfRange ea) ∧
        (i.mnemonic = .push ∨ i.mnemonic = .call))) := by
  cases h with
  | operandStop | refuse | halt | dataStop => exact ⟨fun _ => rfl, .inl fun _ _ => rfl⟩
  | stackStop hm hea => cases ht; exact ⟨fun _ => rfl, .inr ⟨decSp_regsKept s, ⟨_, rfl⟩, hm⟩⟩
  | _ => exact nomatch hs.symm.trans ht

/-- Settles O23: the stages before execute change the step counter and the run state only, and the instruction's part is
`Effect.stopped` and `Effect.stop_keeps`. -/
theorem stopsArePrecise : Obligations.StopsArePrecise := by
  intro opc s t c h ht
  obtain ⟨hrun, ⟨-, rfl⟩ | ⟨-, -, rfl⟩ | ⟨-, -, -, rfl⟩ | ⟨-, -, i, hd, hi⟩⟩ := cycle_next h
  · exact ⟨rfl, fun _ => rfl, .inl fun _ _ => rfl⟩
  · exact ⟨rfl, fun _ => rfl, .inl fun _ _ => rfl⟩
  · exact ⟨rfl, fun _ => rfl, .inl fun _ _ => rfl⟩
  · obtain ⟨-, hpc⟩ := (exec_effect hi).stopped hrun ht
    obtain ⟨hdata, hregs | ⟨hregs, hc, hm⟩⟩ := (exec_effect hi).stop_keeps hrun ht
    · exact ⟨hpc, hdata, .inl hregs⟩
    · exact ⟨hpc, hdata, .inr ⟨hregs, hc, i, hd, hm⟩⟩

end Sys2Proof.Machine

/-! The loader keeps the instruction store canonical over any image it accepts, and so a boot has the invariant
(R290 to R296). -/

namespace Sys2Proof.Machine

/-- A directive leaves the cells, and a word is stored within the store or refused (R293, R294, R297). -/
theorem LoaderState.item_wf {st st' : LoaderState} {it : ImageItem} (h : st.item it = .ok st')
    (hwf : st.imem.wf = true) : st'.imem.wf = true := by
  cases it with
  | address n =>
    simp only [LoaderState.item] at h
    split at h <;> cases h
    exact hwf
  | word w =>
    simp only [LoaderState.item] at h
    split at h <;> cases h
    next hin => exact Memory.write_wf hwf (inStore_iff.mp hin) w

theorem LoaderState.lines_wf : ∀ {ls : List Line} {st st' : LoaderState}, st.lines ls = .ok st' →
    st.imem.wf = true → st'.imem.wf = true
  | [], _, _, h, hwf => by cases h; exact hwf
  | l :: ls, st, st', h, hwf => by
    simp only [LoaderState.lines] at h
    split at h
    · cases h
    · exact LoaderState.lines_wf h hwf
    · split at h
      · cases h
      · next hitem => exact LoaderState.lines_wf h (LoaderState.item_wf hitem hwf)

/-- An accepted image is what the loader's last state holds, its start address the first directive's (R295). -/
theorem loadImage_ok {ls : List Line} {img : Image} (h : loadImage ls = .ok img) :
    ∃ st, LoaderState.start.lines ls = .ok st ∧ img = ⟨st.imem, st.history.head?.getD 0⟩ := by
  unfold loadImage at h
  split at h <;> cases h
  next st hlines => exact ⟨st, hlines, rfl⟩

/-- A boot is the launch of an image the loader accepts (R296). -/
theorem boot_ok {ls : List Line} {n : Option Nat} {s : State} (h : boot ls n = .ok s) :
    ∃ img, loadImage ls = .ok img ∧ s = State.launch ⟨img.imem, img.base, n, []⟩ := by
  unfold boot at h
  split at h <;> cases h
  next img himg => exact ⟨img, himg, rfl⟩

theorem loadImage_wf {ls : List Line} {img : Image} (h : loadImage ls = .ok img) : img.imem.wf = true := by
  obtain ⟨st, hlines, rfl⟩ := loadImage_ok h
  exact LoaderState.lines_wf hlines Memory.wf_empty

/-- Settles O26: a boot is a launch with a canonical image (`launch_inv`, `loadImage_wf`). -/
theorem bootedMachineHasTheInvariant : Obligations.BootedMachineHasTheInvariant := by
  intro ls n s h
  obtain ⟨img, himg, rfl⟩ := boot_ok h
  exact ⟨launch_inv (loadImage_wf himg), rfl, rfl, rfl⟩

/-- Words stored from address 0 on over empty cells (R294). -/
theorem wordsAt_zero (ws : List Word) (a : Nat) : wordsAt 0 ws a 0 = ws.getD a 0 := by
  by_cases ha : a < ws.length
  · simp [wordsAt, ha]
  · simp [wordsAt, ha]

/-- Settles O51: `LoaderState.lines_words` from the loader's start, which leaves the history empty. -/
theorem imageWithoutDirectiveLoadsAtZero : Obligations.ImageWithoutDirectiveLoadsAtZero := by
  intro ws hlen
  obtain ⟨st, hlines, hhist, -, hread⟩ := LoaderState.lines_words ws .start Memory.wf_empty
    (by simpa [LoaderState.start] using hlen)
  refine ⟨⟨st.imem, st.history.head?.getD 0⟩, ?_, ?_, fun a => ?_⟩
  · simp only [loadImage, hlines]
  · rw [hhist]; rfl
  · exact (hread a).trans (wordsAt_zero ws a)

end Sys2Proof.Machine

/-! Observation after a stop (R301). -/

namespace Sys2Proof.Machine

theorem observe_of_running {s : State} (h : s.run = .running) : s.observe = none := by
  simp only [State.observe, h]

theorem observe_of_stopped {s : State} {c : Cause} (h : s.run = .stopped c) :
    s.observe = some ⟨c, s.pc, s.steps, s.x, s.dmem⟩ := by
  simp only [State.observe, h]

/-- Settles O52: the observation's fields are the state's own. -/
theorem hostObservesAfterAStop : Obligations.HostObservesAfterAStop := fun _s =>
  ⟨observe_of_running, fun _c h => ⟨_, observe_of_stopped h, rfl, rfl, rfl, fun _ => rfl, fun _ => rfl⟩⟩

end Sys2Proof.Machine

/-! The canonical form of a store is unique (R51, R52; log 4). -/

namespace Sys2Proof.Machine

/-- A store that is canonical from lo on and reads a listed word at k has lo at most k. -/
theorem Memory.le_of_read_ne {lo k : Nat} {m : Memory} (hm : m.wfFrom lo = true) (h : m.read k ≠ unlistedWord) :
    lo ≤ k :=
  le_of_not_gt fun hk => h (Memory.read_below hk hm)

@[simp] theorem Memory.read_cons_same (k : Nat) (w : Word) (m : Memory) : Memory.read ((k, w) :: m) k = w := by
  simp [Memory.read]

theorem Memory.read_cons_ne {a k : Nat} (h : a ≠ k) (w : Word) (m : Memory) :
    Memory.read ((k, w) :: m) a = m.read a := by
  simp [Memory.read, h]

/-- Stores canonical from some address on that read alike are equal: neither first address is below the other, the words
there are equal, and so are the tails, which read as unlisted at that address. -/
theorem Memory.eq_of_read_eq : ∀ {lo lo' : Nat} {m n : Memory}, m.wfFrom lo = true → n.wfFrom lo' = true →
    (∀ a, m.read a = n.read a) → m = n
  | _, _, [], [], _, _, _ => rfl
  | _, _, [], (l, v) :: n, _, hn, h => by
    obtain ⟨-, -, hv, -⟩ := Memory.wfFrom_cons.mp hn
    exact (hv ((Memory.read_cons_same l v n).symm.trans (h l).symm)).elim
  | _, _, (k, w) :: m, [], hm, _, h => by
    obtain ⟨-, -, hw, -⟩ := Memory.wfFrom_cons.mp hm
    exact (hw ((Memory.read_cons_same k w m).symm.trans (h k))).elim
  | _, _, (k, w) :: m, (l, v) :: n, hm, hn, h => by
    obtain ⟨-, hk, hw, hm'⟩ := Memory.wfFrom_cons.mp hm
    obtain ⟨-, hl, hv, hn'⟩ := Memory.wfFrom_cons.mp hn
    have hlk : l ≤ k := Memory.le_of_read_ne (Memory.wfFrom_cons.mpr ⟨le_rfl, hl, hv, hn'⟩) (by rw [← h k]; simpa)
    have hkl : k ≤ l := Memory.le_of_read_ne (Memory.wfFrom_cons.mpr ⟨le_rfl, hk, hw, hm'⟩) (by rw [h l]; simpa)
    obtain rfl : k = l := le_antisymm hkl hlk
    obtain rfl : w = v := by simpa using h k
    have htail : ∀ a, Memory.read m a = Memory.read n a := by
      intro a
      by_cases ha : a = k
      · subst ha
        rw [Memory.read_below (Nat.lt_succ_self a) hm', Memory.read_below (Nat.lt_succ_self a) hn']
      · simpa only [Memory.read_cons_ne ha] using h a
    rw [Memory.eq_of_read_eq hm' hn' htail]

/-- Settles O29: `Memory.eq_of_read_eq` from address 0 on. -/
theorem canonicalStoresAreEqualData : Obligations.CanonicalStoresAreEqualData := fun _m _n hm hn h =>
  Memory.eq_of_read_eq hm hn h

end Sys2Proof.Machine
